-- ==== Sys2Proof/Word.lean ====
section
/-! DEFINITION. The machine's words (spec/00_scope.md R6: every value is unsigned, bit 0 is the least significant bit). -/

namespace Sys2Proof

/-- An 8-bit value, `u8` of R6: a general register, a timer, a byte of memory, the immediate `NN`. -/
abbrev Byte := BitVec 8

/-- A 16-bit value, `u16` of R6: an instruction word, `I`, `pc`, a return address. -/
abbrev Word := BitVec 16

/-- A 4-bit field of an instruction word: `N` of R52. -/
abbrev Nibble := BitVec 4

/-- The 12-bit address field `NNN` of R52 and R53. -/
abbrev Addr12 := BitVec 12

/-- The index of a general register, 0 to 15 (R13: a 4-bit field, every value legal). -/
abbrev Reg := Fin 16

/-- The index of a key of the input latch, 0 to 15 (R26). -/
abbrev Key := Fin 16

end Sys2Proof
end

