-- ==== Sys2Proof/Syntax.lean ====
section
/-! DEFINITION. The 34 instructions of spec/opcode_table.json, one constructor per row, in the table's order. Operands are
the fields of R52, already cut to their widths, so every term of `Instr` is a well-formed instruction: no register index is
above 15, no address above 0xFFF (R54: "Every index is legal"). -/

namespace Sys2Proof

/-- An instruction with its field values (R66). -/
inductive Instr where
  /-- `00E0` CLS (R73). -/
  | cls
  /-- `00EE` RET (R76). -/
  | ret
  /-- `1NNN` JP addr (R77). -/
  | jp (nnn : Addr12)
  /-- `2NNN` CALL addr (R78). -/
  | call (nnn : Addr12)
  /-- `3XNN` SE Vx, byte (R79). -/
  | seByte (x : Reg) (nn : Byte)
  /-- `4XNN` SNE Vx, byte (R80). -/
  | sneByte (x : Reg) (nn : Byte)
  /-- `5XY0` SE Vx, Vy (R81). -/
  | seReg (x y : Reg)
  /-- `6XNN` LD Vx, byte (R84). -/
  | ldByte (x : Reg) (nn : Byte)
  /-- `7XNN` ADD Vx, byte (R85). -/
  | addByte (x : Reg) (nn : Byte)
  /-- `8XY0` LD Vx, Vy (R86). -/
  | ldReg (x y : Reg)
  /-- `8XY1` OR Vx, Vy (R87). -/
  | orReg (x y : Reg)
  /-- `8XY2` AND Vx, Vy (R88). -/
  | andReg (x y : Reg)
  /-- `8XY3` XOR Vx, Vy (R89). -/
  | xorReg (x y : Reg)
  /-- `8XY4` ADD Vx, Vy (R90). -/
  | addReg (x y : Reg)
  /-- `8XY5` SUB Vx, Vy (R91). -/
  | subReg (x y : Reg)
  /-- `8XY6` SHR Vx, with Vy its source in one dialect (R92). -/
  | shr (x y : Reg)
  /-- `8XY7` SUBN Vx, Vy (R93). -/
  | subn (x y : Reg)
  /-- `8XYE` SHL Vx, with Vy its source in one dialect (R94). -/
  | shl (x y : Reg)
  /-- `9XY0` SNE Vx, Vy (R82). -/
  | sneReg (x y : Reg)
  /-- `ANNN` LD I, addr (R98). -/
  | ldI (nnn : Addr12)
  /-- `BNNN` JP V0, addr (R83). -/
  | jpV0 (nnn : Addr12)
  /-- `CXNN` RND Vx, byte (R95). -/
  | rnd (x : Reg) (nn : Byte)
  /-- `DXYN` DRW Vx, Vy, nibble (R75). -/
  | drw (x y : Reg) (n : Nibble)
  /-- `EX9E` SKP Vx (R105). -/
  | skp (x : Reg)
  /-- `EXA1` SKNP Vx (R106). -/
  | sknp (x : Reg)
  /-- `FX07` LD Vx, DT (R108). -/
  | ldVxDT (x : Reg)
  /-- `FX0A` LD Vx, K (R107). -/
  | ldVxK (x : Reg)
  /-- `FX15` LD DT, Vx (R109). -/
  | ldDTVx (x : Reg)
  /-- `FX18` LD ST, Vx (R110). -/
  | ldSTVx (x : Reg)
  /-- `FX1E` ADD I, Vx (R99). -/
  | addIVx (x : Reg)
  /-- `FX29` LD F, Vx (R100). -/
  | ldFVx (x : Reg)
  /-- `FX33` LD B, Vx (R101). -/
  | ldBVx (x : Reg)
  /-- `FX55` LD [I], Vx (R102). -/
  | ldMemVx (x : Reg)
  /-- `FX65` LD Vx, [I] (R103). -/
  | ldVxMem (x : Reg)
deriving DecidableEq, Repr

end Sys2Proof
end

