-- ==== Sys2Proof/WellFormed.lean ====
section
/-! DEFINITION. Which instruction words are well formed, written from the list of invalid encodings of
spec/30_encoding.md R60 alone, by arithmetic on the word as a number and not by the decoder's fields, so that the decoder can
be held against it. Terms of `Instr` need no check of their own: their operand types admit only what R52 to R54 admit. -/

namespace Sys2Proof

/-- Why bytes are no instruction: one name per line of R60's list, and one for bytes that are too few to be a word. -/
inductive Invalid where
  /-- `0x0000`-`0x0FFF` except `0x00E0` and `0x00EE` (SYS among them, decision D19). -/
  | zeroClass
  /-- `0x5XYn` or `0x9XYn` with `n` != 0 when `STRICT_5_9`. -/
  | compareNibble
  /-- `0x8XYn` with `n` in 8, 9, A, B, C, D, F. -/
  | aluFunction
  /-- `0xEXnn` with `nn` not 9E or A1. -/
  | keyFunction
  /-- `0xFXnn` with `nn` none of the nine of R59. -/
  | miscFunction
  /-- Fewer than the two bytes of R51. -/
  | truncated
deriving DecidableEq, Repr

/-- The low bytes of R59. -/
def miscFunctions : List Nat := [0x07, 0x0A, 0x15, 0x18, 0x1E, 0x29, 0x33, 0x55, 0x65]

/-- The line of R60 under which a word is invalid, if any. -/
def invalidBecause (strict : Bool) (w : Word) : Option Invalid :=
  let n := w.toNat
  if n < 0x1000 then
    if n = 0x00E0 ∨ n = 0x00EE then none else some .zeroClass
  else if n / 0x1000 = 5 ∨ n / 0x1000 = 9 then
    if strict ∧ n % 0x10 ≠ 0 then some .compareNibble else none
  else if n / 0x1000 = 8 then
    if n % 0x10 ≤ 7 ∨ n % 0x10 = 0xE then none else some .aluFunction
  else if n / 0x1000 = 0xE then
    if n % 0x100 = 0x9E ∨ n % 0x100 = 0xA1 then none else some .keyFunction
  else if n / 0x1000 = 0xF then
    if n % 0x100 ∈ miscFunctions then none else some .miscFunction
  else none

/-- The word is an instruction of the dialect (R60). -/
def wordWellFormed (strict : Bool) (w : Word) : Bool := (invalidBecause strict w).isNone

end Sys2Proof
end

