-- ==== Sys2Proof/Decode.lean ====
section
/-! DEFINITION. The decoder (spec/30_encoding.md R51 to R60, spec/40_engine.md R66, R67), total on any word and any bytes, and
the encoder, written from the same tables. The encodings of 31 of the 34 rows are the spec's import of the conventional
CHIP-8 encoding (decision D30; log 5). -/

namespace Sys2Proof

/-- The result of decoding: "either one of the 34 instructions with its field values, or `Invalid`" (R66), with the line of
R60 that rejects the word. -/
inductive Decoded where
  | instr (i : Instr)
  | invalid (why : Invalid)
deriving DecidableEq, Repr

/-- The instruction, if there is one. -/
def Decoded.instr? : Decoded → Option Instr
  | .instr i => some i
  | .invalid _ => none

/-! ### The fields of R52 -/

/-- `C` = `op[15:12]`, the operation class. -/
def fieldClass (w : Word) : Nibble := w.extractLsb' 12 4

/-- `X` = `op[11:8]`. -/
def fieldX (w : Word) : Reg := (w.extractLsb' 8 4).toFin

/-- `Y` = `op[7:4]`. -/
def fieldY (w : Word) : Reg := (w.extractLsb' 4 4).toFin

/-- `N` = `op[3:0]`. -/
def fieldN (w : Word) : Nibble := w.extractLsb' 0 4

/-- `NN` = `op[7:0]`. -/
def fieldNN (w : Word) : Byte := w.extractLsb' 0 8

/-- `NNN` = `op[11:0]`. -/
def fieldNNN (w : Word) : Addr12 := w.extractLsb' 0 12

/-! ### Decoding -/

/-- Class 0x0 (R56): two words, every other one invalid. -/
def decodeZero (w : Word) : Decoded :=
  if w = 0x00E0 then .instr .cls
  else if w = 0x00EE then .instr .ret
  else .invalid .zeroClass

/-- Classes 0x5 and 0x9 (R55, R60): the low nibble must be 0 when `STRICT_5_9`, and is ignored when not. -/
def decodeCompare (strict : Bool) (n : Nibble) (i : Instr) : Decoded :=
  if strict && n != 0 then .invalid .compareNibble else .instr i

/-- Class 0x8 (R57), by the function nibble. -/
def decodeAlu (x y : Reg) (n : Nibble) : Decoded :=
  match n with
  | 0x0#4 => .instr (.ldReg x y)
  | 0x1#4 => .instr (.orReg x y)
  | 0x2#4 => .instr (.andReg x y)
  | 0x3#4 => .instr (.xorReg x y)
  | 0x4#4 => .instr (.addReg x y)
  | 0x5#4 => .instr (.subReg x y)
  | 0x6#4 => .instr (.shr x y)
  | 0x7#4 => .instr (.subn x y)
  | 0xE#4 => .instr (.shl x y)
  | _ => .invalid .aluFunction

/-- Class 0xE (R58), by the low byte. -/
def decodeKey (x : Reg) (nn : Byte) : Decoded :=
  match nn with
  | 0x9E#8 => .instr (.skp x)
  | 0xA1#8 => .instr (.sknp x)
  | _ => .invalid .keyFunction

/-- Class 0xF (R59), by the low byte. -/
def decodeMisc (x : Reg) (nn : Byte) : Decoded :=
  match nn with
  | 0x07#8 => .instr (.ldVxDT x)
  | 0x0A#8 => .instr (.ldVxK x)
  | 0x15#8 => .instr (.ldDTVx x)
  | 0x18#8 => .instr (.ldSTVx x)
  | 0x1E#8 => .instr (.addIVx x)
  | 0x29#8 => .instr (.ldFVx x)
  | 0x33#8 => .instr (.ldBVx x)
  | 0x55#8 => .instr (.ldMemVx x)
  | 0x65#8 => .instr (.ldVxMem x)
  | _ => .invalid .miscFunction

/-- The opcode map (R55), primary dispatch on the class. -/
def decodeWord (strict : Bool) (w : Word) : Decoded :=
  match fieldClass w with
  | 0x0#4 => decodeZero w
  | 0x1#4 => .instr (.jp (fieldNNN w))
  | 0x2#4 => .instr (.call (fieldNNN w))
  | 0x3#4 => .instr (.seByte (fieldX w) (fieldNN w))
  | 0x4#4 => .instr (.sneByte (fieldX w) (fieldNN w))
  | 0x5#4 => decodeCompare strict (fieldN w) (.seReg (fieldX w) (fieldY w))
  | 0x6#4 => .instr (.ldByte (fieldX w) (fieldNN w))
  | 0x7#4 => .instr (.addByte (fieldX w) (fieldNN w))
  | 0x8#4 => decodeAlu (fieldX w) (fieldY w) (fieldN w)
  | 0x9#4 => decodeCompare strict (fieldN w) (.sneReg (fieldX w) (fieldY w))
  | 0xA#4 => .instr (.ldI (fieldNNN w))
  | 0xB#4 => .instr (.jpV0 (fieldNNN w))
  | 0xC#4 => .instr (.rnd (fieldX w) (fieldNN w))
  | 0xD#4 => .instr (.drw (fieldX w) (fieldY w) (fieldN w))
  | 0xE#4 => decodeKey (fieldX w) (fieldNN w)
  | _ => decodeMisc (fieldX w) (fieldNN w)

/-- Big-endian bytes to the word they hold (R38): the first byte is the high one. -/
def joinBytes (hi lo : Byte) : Word := hi ++ lo

/-- The two bytes of a word as memory holds them, high byte first (R38). -/
def wordBytes (w : Word) : List Byte := [w.extractLsb' 8 8, w.extractLsb' 0 8]

/-- Decode the first instruction of a list of bytes, and give the bytes after it (R51: always two). -/
def decodeBytes (strict : Bool) : List Byte → Decoded × List Byte
  | hi :: lo :: rest => (decodeWord strict (joinBytes hi lo), rest)
  | short => (.invalid .truncated, short)

/-- The word that `spec/opcode_table.json` numbers `w`, of `nbits` bits: every instruction is one 16-bit word (R51), and the
bits from `nbits` on are 0. -/
def tableWord (nbits w : Nat) : Word := BitVec.ofNat 16 (w % 2 ^ nbits)

/-- The decoder, in the strict default dialect (R5), on an instruction given as the opcode table numbers its bits. -/
def decodeTableWord (nbits w : Nat) : Option Instr :=
  (decodeBytes true (wordBytes (tableWord nbits w))).1.instr?

/-! ### Encoding -/

/-- The 4 bits of a register field. -/
def regBits (x : Reg) : Nibble := BitVec.ofFin x

/-- Format `FA` of R52: `CCCC NNNN NNNN NNNN`. -/
def encFA (c : Nibble) (nnn : Addr12) : Word := c ++ nnn

/-- Formats `FI` and `FX` of R52: `CCCC XXXX` and a byte, an immediate or a function. -/
def encFI (c : Nibble) (x : Reg) (nn : Byte) : Word := c ++ regBits x ++ nn

/-- Formats `FR` and `FD` of R52: `CCCC XXXX YYYY` and a nibble, a function or a height. -/
def encFR (c : Nibble) (x y : Reg) (n : Nibble) : Word := c ++ regBits x ++ regBits y ++ n

/-- The word of an instruction (R52, R55 to R59). -/
def encode : Instr → Word
  | .cls => 0x00E0
  | .ret => 0x00EE
  | .jp nnn => encFA 0x1 nnn
  | .call nnn => encFA 0x2 nnn
  | .seByte x nn => encFI 0x3 x nn
  | .sneByte x nn => encFI 0x4 x nn
  | .seReg x y => encFR 0x5 x y 0x0
  | .ldByte x nn => encFI 0x6 x nn
  | .addByte x nn => encFI 0x7 x nn
  | .ldReg x y => encFR 0x8 x y 0x0
  | .orReg x y => encFR 0x8 x y 0x1
  | .andReg x y => encFR 0x8 x y 0x2
  | .xorReg x y => encFR 0x8 x y 0x3
  | .addReg x y => encFR 0x8 x y 0x4
  | .subReg x y => encFR 0x8 x y 0x5
  | .shr x y => encFR 0x8 x y 0x6
  | .subn x y => encFR 0x8 x y 0x7
  | .shl x y => encFR 0x8 x y 0xE
  | .sneReg x y => encFR 0x9 x y 0x0
  | .ldI nnn => encFA 0xA nnn
  | .jpV0 nnn => encFA 0xB nnn
  | .rnd x nn => encFI 0xC x nn
  | .drw x y n => encFR 0xD x y n
  | .skp x => encFI 0xE x 0x9E
  | .sknp x => encFI 0xE x 0xA1
  | .ldVxDT x => encFI 0xF x 0x07
  | .ldVxK x => encFI 0xF x 0x0A
  | .ldDTVx x => encFI 0xF x 0x15
  | .ldSTVx x => encFI 0xF x 0x18
  | .addIVx x => encFI 0xF x 0x1E
  | .ldFVx x => encFI 0xF x 0x29
  | .ldBVx x => encFI 0xF x 0x33
  | .ldMemVx x => encFI 0xF x 0x55
  | .ldVxMem x => encFI 0xF x 0x65

/-- The bytes of an instruction as memory holds them. -/
def encodeBytes (i : Instr) : List Byte := wordBytes (encode i)

/-! ### The opcode table itself -/

/-- A row of spec/opcode_table.json: a word is the row's when its bits under `mask` are `pattern` (the table's "match"). -/
structure OpcodeRow where
  mnemonic : String
  pattern : Word
  mask : Word
deriving DecidableEq, Repr

/-- The 34 rows of spec/opcode_table.json, copied in its order (masks of the strict dialect, as the table gives them). -/
def opcodeRows : List OpcodeRow :=
  [ ⟨"CLS", 0x00E0, 0xFFFF⟩,
    ⟨"RET", 0x00EE, 0xFFFF⟩,
    ⟨"JP_addr", 0x1000, 0xF000⟩,
    ⟨"CALL_addr", 0x2000, 0xF000⟩,
    ⟨"SE_Vx__byte", 0x3000, 0xF000⟩,
    ⟨"SNE_Vx__byte", 0x4000, 0xF000⟩,
    ⟨"SE_Vx__Vy", 0x5000, 0xF00F⟩,
    ⟨"LD_Vx__byte", 0x6000, 0xF000⟩,
    ⟨"ADD_Vx__byte", 0x7000, 0xF000⟩,
    ⟨"LD_Vx__Vy", 0x8000, 0xF00F⟩,
    ⟨"OR_Vx__Vy", 0x8001, 0xF00F⟩,
    ⟨"AND_Vx__Vy", 0x8002, 0xF00F⟩ ] ++
  [ ⟨"XOR_Vx__Vy", 0x8003, 0xF00F⟩,
    ⟨"ADD_Vx__Vy", 0x8004, 0xF00F⟩,
    ⟨"SUB_Vx__Vy", 0x8005, 0xF00F⟩,
    ⟨"SHR_Vx____Vy", 0x8006, 0xF00F⟩,
    ⟨"SUBN_Vx__Vy", 0x8007, 0xF00F⟩,
    ⟨"SHL_Vx____Vy", 0x800E, 0xF00F⟩,
    ⟨"SNE_Vx__Vy", 0x9000, 0xF00F⟩,
    ⟨"LD_I__addr", 0xA000, 0xF000⟩,
    ⟨"JP_V0__addr", 0xB000, 0xF000⟩,
    ⟨"RND_Vx__byte", 0xC000, 0xF000⟩,
    ⟨"DRW_Vx__Vy__nibble", 0xD000, 0xF000⟩,
    ⟨"SKP_Vx", 0xE09E, 0xF0FF⟩ ] ++
  [ ⟨"SKNP_Vx", 0xE0A1, 0xF0FF⟩,
    ⟨"LD_Vx__DT", 0xF007, 0xF0FF⟩,
    ⟨"LD_Vx__K", 0xF00A, 0xF0FF⟩,
    ⟨"LD_DT__Vx", 0xF015, 0xF0FF⟩,
    ⟨"LD_ST__Vx", 0xF018, 0xF0FF⟩,
    ⟨"ADD_I__Vx", 0xF01E, 0xF0FF⟩,
    ⟨"LD_F__Vx", 0xF029, 0xF0FF⟩,
    ⟨"LD_B__Vx", 0xF033, 0xF0FF⟩,
    ⟨"LD__I___Vx", 0xF055, 0xF0FF⟩,
    ⟨"LD_Vx___I", 0xF065, 0xF0FF⟩ ]

/-- The word belongs to the row. -/
def OpcodeRow.matches (r : OpcodeRow) (w : Word) : Bool := w &&& r.mask == r.pattern

/-- The row of the table that an instruction stands for. -/
def rowMnemonic : Instr → String
  | .cls => "CLS"
  | .ret => "RET"
  | .jp _ => "JP_addr"
  | .call _ => "CALL_addr"
  | .seByte _ _ => "SE_Vx__byte"
  | .sneByte _ _ => "SNE_Vx__byte"
  | .seReg _ _ => "SE_Vx__Vy"
  | .ldByte _ _ => "LD_Vx__byte"
  | .addByte _ _ => "ADD_Vx__byte"
  | .ldReg _ _ => "LD_Vx__Vy"
  | .orReg _ _ => "OR_Vx__Vy"
  | .andReg _ _ => "AND_Vx__Vy"
  | .xorReg _ _ => "XOR_Vx__Vy"
  | .addReg _ _ => "ADD_Vx__Vy"
  | .subReg _ _ => "SUB_Vx__Vy"
  | .shr _ _ => "SHR_Vx____Vy"
  | .subn _ _ => "SUBN_Vx__Vy"
  | .shl _ _ => "SHL_Vx____Vy"
  | .sneReg _ _ => "SNE_Vx__Vy"
  | .ldI _ => "LD_I__addr"
  | .jpV0 _ => "JP_V0__addr"
  | .rnd _ _ => "RND_Vx__byte"
  | .drw _ _ _ => "DRW_Vx__Vy__nibble"
  | .skp _ => "SKP_Vx"
  | .sknp _ => "SKNP_Vx"
  | .ldVxDT _ => "LD_Vx__DT"
  | .ldVxK _ => "LD_Vx__K"
  | .ldDTVx _ => "LD_DT__Vx"
  | .ldSTVx _ => "LD_ST__Vx"
  | .addIVx _ => "ADD_I__Vx"
  | .ldFVx _ => "LD_F__Vx"
  | .ldBVx _ => "LD_B__Vx"
  | .ldMemVx _ => "LD__I___Vx"
  | .ldVxMem _ => "LD_Vx___I"

end Sys2Proof
end

