-- ==== Sys2Proof/Config.lean ====
section
/-! DEFINITION. What is fixed for a run (spec/00_scope.md R5): the dialect settings, as a type, and the free value of the
random source. The default settings are `Sys2Proof.Machine.dialect` in Machine/Params.lean. None of this is state (R34). -/

namespace Sys2Proof

/-- `SHIFT_SOURCE` of R5: which register 8XY6 and 8XYE shift (R92, R94; decision D9). -/
inductive ShiftSource where
  /-- Shift `V[X]` in place. -/
  | vx
  /-- Shift `V[Y]` into `V[X]`. -/
  | vy
deriving DecidableEq, Repr

/-- `KEY_INDEX_MODE` of R5: what a register value above 15 names for EX9E and EXA1 (R104; decision D13). -/
inductive KeyIndexMode where
  /-- Only the low nibble is used. -/
  | lowNibble
  /-- A value above 15 is the model-only error `KeyRegisterOutOfRange`. -/
  | fault
deriving DecidableEq, Repr

/-- `RESERVED_WRITE` of R5: what an instruction's write below 0x200 does (R40; decision D7). -/
inductive ReservedWrite where
  /-- The write is dropped without report. -/
  | ignore
  /-- The byte is written. -/
  | allow
  /-- The instruction stops with the model-only error `ReservedWrite`. -/
  | fault
deriving DecidableEq, Repr

/-- `ON_INVALID` of R5: whether an invalid word halts the core (R70; decision D16). -/
inductive OnInvalid where
  | halt
  | skip
deriving DecidableEq, Repr

/-- The dialect parameters of R5, "fixed for a run" (R34). -/
structure Dialect where
  /-- `SHIFT_SOURCE`. -/
  shiftSource : ShiftSource
  /-- `ADD_I_SETS_VF` (R99; decision D10). -/
  addISetsVF : Bool
  /-- `MEM_OPS_INCREMENT_I` (R102, R103; decision D11). -/
  memOpsIncrementI : Bool
  /-- `LOGIC_RESETS_VF` (R87 to R89; decision D12). -/
  logicResetsVF : Bool
  /-- `KEY_INDEX_MODE`. -/
  keyIndexMode : KeyIndexMode
  /-- `RESERVED_WRITE`. -/
  reservedWrite : ReservedWrite
  /-- `STRICT_5_9`: 5XYn and 9XYn with n != 0 are invalid (R60; decision D14). -/
  strict59 : Bool
  /-- `ON_INVALID`. -/
  onInvalid : OnInvalid
deriving DecidableEq, Repr

/-- FREE VALUE (log 16). The byte that the environment supplies for the `n`-th draw of CXNN: "an 8-bit value chosen by the
environment ... any of 0..255, under no law, and a claim must hold for every draw" (R97). It has no body, so no proof can
see what it is. -/
opaque Config.draw : Nat → Byte

end Sys2Proof
end

