-- ==== Sys2Proof/Machine/Params.lean ====
section
/-! DEFINITION. The values of the implementation parameters of spec/00_scope.md R5. -/

namespace Sys2Proof.Machine

/-- `MEM_SIZE` = 4096 (R5, fixed; R30). -/
def memSize : Nat := 4096

/-- `LOAD_ADDR` = 0x200 (R5; the end-to-end trace). -/
def loadAddr : Word := 0x200

/-- `RESERVED_TOP` = `LOAD_ADDR`: addresses below it are interpreter-reserved (R5, R39). -/
def reservedTop : Nat := loadAddr.toNat

/-- `FONT_BASE` = 0x000. DESIGN CHOICE, unsafe: the spec's decision D5 (log 4). -/
def fontBase : Nat := 0x000

/-- `GLYPH_BYTES` = 5. PRESUMED, unsafe: the conventional CHIP-8 font (decision D6; log 4). -/
def glyphBytes : Nat := 5

/-- `FONT_DATA`, 16 glyphs of 5 bytes (R33). PRESUMED, unsafe: the conventional CHIP-8 font (log 4). -/
def fontData : List Byte :=
  [0xF0, 0x90, 0x90, 0x90, 0xF0] ++ [0x20, 0x60, 0x20, 0x20, 0x70] ++
  [0xF0, 0x10, 0xF0, 0x80, 0xF0] ++ [0xF0, 0x10, 0xF0, 0x10, 0xF0] ++
  [0x90, 0x90, 0xF0, 0x10, 0x10] ++ [0xF0, 0x80, 0xF0, 0x10, 0xF0] ++
  [0xF0, 0x80, 0xF0, 0x90, 0xF0] ++ [0xF0, 0x10, 0x20, 0x40, 0x40] ++
  [0xF0, 0x90, 0xF0, 0x90, 0xF0] ++ [0xF0, 0x90, 0xF0, 0x10, 0xF0] ++
  [0xF0, 0x90, 0xF0, 0x90, 0x90] ++ [0xE0, 0x90, 0xE0, 0x90, 0xE0] ++
  [0xF0, 0x80, 0x80, 0x80, 0xF0] ++ [0xE0, 0x90, 0x90, 0x90, 0xE0] ++
  [0xF0, 0x80, 0xF0, 0x80, 0xF0] ++ [0xF0, 0x80, 0xF0, 0x80, 0x80]

/-- The length a font override must have, 16 x `GLYPH_BYTES` (R132). -/
def fontBytes : Nat := 16 * glyphBytes

/-- `FLAG_REG` = 15, the register `VF` (R7, R14). PRESUMED, unsafe: the CHIP-8 convention (decision D2; log 2). -/
def flagReg : Reg := 15

/-- The default dialect of R5, which `exec` and `step` run. DESIGN CHOICE, unsafe for a chip of another dialect: the spec's
decisions D7 and D9 to D16 (logs 1 and 8 to 15). -/
def dialect : Dialect where
  shiftSource := .vx
  addISetsVF := false
  memOpsIncrementI := false
  logicResetsVF := false
  keyIndexMode := .lowNibble
  reservedWrite := .ignore
  strict59 := true
  onInvalid := .halt

end Sys2Proof.Machine
end

