-- ==== Sys2Proof/Machine/Memory.lean ====
section
/-! DEFINITION. The memory of spec/20_memory.md: 4096 bytes, as a list of (address, byte) pairs in one canonical form, the
addresses strictly rising and no entry equal to what an unlisted address reads as. Callers reduce an address modulo 4096
(R36) before they come here. -/

namespace Sys2Proof.Machine

/-- The memory: the bytes that differ from the reset contents. -/
abbrev Memory := List Host.Cell

/-- What an unlisted address reads as: the reset contents, the font from `FONT_BASE` on and zero elsewhere (R33, R129). -/
def Memory.unlisted (a : Nat) : Byte :=
  if fontBase ≤ a then fontData.getD (a - fontBase) 0 else 0

/-- The byte at an address; reading changes nothing (R43). -/
def Memory.read : Memory → Nat → Byte
  | [], a => Memory.unlisted a
  | c :: m, a => if c.1 = a then c.2 else Memory.read m a

/-- Take an address out of the list. -/
def Memory.remove (m : Memory) (a : Nat) : Memory := m.filter (fun c => c.1 != a)

/-- Put a pair in front of the first larger address. -/
def Memory.insert : Memory → Host.Cell → Memory
  | [], c => [c]
  | d :: m, c => if c.1 < d.1 then c :: d :: m else d :: Memory.insert m c

/-- Store one byte, keeping the canonical form. -/
def Memory.write (m : Memory) (a : Nat) (v : Byte) : Memory :=
  if v = Memory.unlisted a then Memory.remove m a else Memory.insert (Memory.remove m a) (a, v)

/-- Store bytes at rising addresses, without reduction: the interpreter's own copies (R129, R131). -/
def Memory.writeList (m : Memory) (a : Nat) : List Byte → Memory
  | [] => m
  | v :: vs => Memory.writeList (Memory.write m a v) (a + 1) vs

/-- The canonical form: addresses strictly rising and below `MEM_SIZE`, no entry equal to the reset contents. -/
abbrev Memory.wf (m : Memory) : Prop :=
  m.Pairwise (fun c d => c.1 < d.1) ∧ ∀ c ∈ m, c.1 < memSize ∧ c.2 ≠ Memory.unlisted c.1

end Sys2Proof.Machine
end

