-- ==== Sys2Proof/Machine/State.lean ====
section
/-! DEFINITION. The state of spec/10_state.md, all of it (R34: "The table is the whole architectural state"), the errors of
spec/60_exceptions.md R112, and the reset state of R34 and R129. Two fields are the model's own: `draws` (log 16) and
`trace` (log 17). -/

namespace Sys2Proof.Machine

/-- The error kinds of R112, a closed enumeration. -/
inductive ErrorKind where
  | loadError
  | invalidInstruction
  | stackOverflow
  | stackUnderflow
  | inputIndexOutOfRange
  /-- Model-only, under `RESERVED_WRITE` = `FAULT`. -/
  | reservedWrite
  /-- Model-only, under `KEY_INDEX_MODE` = `FAULT`. -/
  | keyRegisterOutOfRange
deriving DecidableEq, Repr

/-- An error with the info that R112 says is recorded. -/
inductive Error where
  /-- By `loadProgram`: the length of the program, or of a bad font override. -/
  | loadError (length : Nat)
  /-- By `step()` on an invalid word: the word and its fetch address. -/
  | invalidInstruction (word address : Word)
  /-- By CALL at depth 16: the fetch address. -/
  | stackOverflow (address : Word)
  /-- By RET at depth 0: the fetch address. -/
  | stackUnderflow (address : Word)
  /-- By `setKey`: the index, which may be negative. -/
  | inputIndexOutOfRange (index : Int)
  /-- By FX33 or FX55 under `RESERVED_WRITE` = `FAULT`: the reduced address. -/
  | reservedWrite (address : Word)
  /-- By EX9E or EXA1 under `KEY_INDEX_MODE` = `FAULT`: the register's value. -/
  | keyRegisterOutOfRange (value : Byte)
deriving DecidableEq, Repr

/-- The run state of R31. -/
inductive RunState where
  /-- `step()` fetches and executes. -/
  | running
  /-- An FX0A with register index `x` is suspended. -/
  | awaitingKey (x : Reg)
  /-- A fatal error stopped execution. -/
  | halted (e : ErrorKind)
deriving DecidableEq, Repr

/-- What the core reports to the outside (R9, R121): the beep, and an error with its info. -/
inductive Event where
  | beep
  | raised (e : Error)
deriving DecidableEq, Repr

/-- The 64 x 32 grid of R28: `fb[x][y]` is the pixel at column `x` and row `y`. The size is the spec's decision D1 (log 3). -/
abbrev Framebuffer := Vector (Vector Bool 32) 64

/-- The state of the core. -/
structure State where
  /-- `V[0]` to `V[15]` (R13). -/
  v : Vector Byte 16
  /-- The index register `I` (R16). -/
  i : Word
  /-- The program counter (R18). -/
  pc : Word
  /-- The call depth, "an integer 0..16" (R21). -/
  sp : Fin 17
  /-- The call stack; entries at `sp` and above are unobservable (R20, R21). -/
  stack : Vector Word 16
  /-- The delay timer `DT` (R23). -/
  dt : Byte
  /-- The sound timer `ST` (R24). -/
  st : Byte
  /-- The input latch, true where a key is pressed (R26). -/
  key : Vector Bool 16
  /-- The framebuffer, true where a pixel is on (R28). -/
  fb : Framebuffer
  /-- The memory (R30, R35). -/
  mem : Memory
  /-- The run state (R31). -/
  run : RunState
  /-- MODEL: how many random bytes have been drawn; `Config.draw draws` is the next (R97; log 16). -/
  draws : Nat
  /-- MODEL: the run's event trace, newest first (R121; log 17). -/
  trace : List Event
deriving DecidableEq, Repr

/-- The reasons a step stops the model with a fault: none. Every word has an effect in every state: an invalid word, a stack
overflow or underflow is reported and, where fatal, leaves `run` = `Halted` (R70, R71, R111), which is a next state, and "no
memory access by an instruction ever faults" (R36). Nothing raises a fault, so nothing is unsafe here (log 28). -/
inductive Fault where
deriving DecidableEq, Repr

/-- The reasons an instruction is refused. -/
inductive Refusal where
  /-- Raised by an arm of `exec` whose instruction has no meaning yet; no arm raises it now. Safe: the model stops. -/
  | notModelled (mnemonic : String)
deriving DecidableEq, Repr

/-- The reset state of R34 and R129. The values of `fb` and `run` are the spec's decisions D16 and D17 (DESIGN CHOICE, log
19); of the stack entries, which nothing can observe, the model's DESIGN CHOICE (log 18); of `draws` and `trace`, the model's
DESIGN CHOICE (logs 16 and 17). -/
def State.reset : State where
  v := Vector.replicate 16 0
  i := 0
  pc := loadAddr
  sp := 0
  stack := Vector.replicate 16 0
  dt := 0
  st := 0
  key := Vector.replicate 16 false
  fb := Vector.replicate 64 (Vector.replicate 32 false)
  mem := []
  run := .running
  draws := 0
  trace := []

end Sys2Proof.Machine
end

