-- ==== Sys2Proof/Machine/Ops.lean ====
section
/-! DEFINITION. The named operations on the state: its registers, memory, call stack, latch, random source, and the raising
of an error with the one way back from it. -/

namespace Sys2Proof.Machine

/-- The outcome of an instruction of this machine. -/
abbrev Result := Host.Outcome State Fault Refusal

/-! ### One setter per field -/

/-- `V[x] <- b` (R7). -/
def State.setReg (s : State) (x : Reg) (b : Byte) : State := { s with v := s.v.set x.val b x.isLt }

/-- `I <- w`. -/
def State.setI (s : State) (w : Word) : State := { s with i := w }

/-- `pc <- w`; a `Word` sum is already reduced modulo 0x10000 (R18). -/
def State.setPc (s : State) (w : Word) : State := { s with pc := w }

/-- `sp <- d`. -/
def State.setSp (s : State) (d : Fin 17) : State := { s with sp := d }

/-- Write the stack's storage. -/
def State.setStack (s : State) (k : Vector Word 16) : State := { s with stack := k }

/-- `DT <- b`. -/
def State.setDt (s : State) (b : Byte) : State := { s with dt := b }

/-- `ST <- b`. -/
def State.setSt (s : State) (b : Byte) : State := { s with st := b }

/-- `key[k] <- pressed`; only the host calls it (R27). -/
def State.setKeyAt (s : State) (k : Key) (pressed : Bool) : State := { s with key := s.key.set k.val pressed k.isLt }

/-- Replace the framebuffer. -/
def State.setFb (s : State) (g : Framebuffer) : State := { s with fb := g }

/-- Replace the memory. -/
def State.setMem (s : State) (m : Memory) : State := { s with mem := m }

/-- `run <- r`. -/
def State.setRun (s : State) (r : RunState) : State := { s with run := r }

/-- Set the number of draws taken. -/
def State.setDraws (s : State) (n : Nat) : State := { s with draws := n }

/-- Send an event to the outside: `emit` of R9. -/
def State.emit (s : State) (e : Event) : State := { s with trace := e :: s.trace }

/-! ### Reading -/

/-- `V[x]` (R7). -/
def State.reg (s : State) (x : Reg) : Byte := s.v[x.val]

/-- `key[k]` (R7). -/
def State.keyAt (s : State) (k : Key) : Bool := s.key[k.val]

/-- `sp` as the 8-bit value R21 stores it in. -/
def State.spByte (s : State) : Byte := BitVec.ofNat 8 s.sp.val

/-- `ea = addr mod 4096` (R36). -/
def effective (a : Word) : Nat := a.toNat % memSize

/-- `MemRead(a, 1)` (R8). -/
def State.readByte (s : State) (a : Word) : Byte := s.mem.read (effective a)

/-- `Fetch16(a)` (R38): big-endian, each byte's address reduced on its own. -/
def State.fetch16 (s : State) (a : Word) : Word := joinBytes (s.readByte a) (s.readByte (a + 1))

/-- In the execute phase, the address the instruction was fetched from: `pc` already holds it plus 2 (R65; log 27). -/
def State.fetchAddress (s : State) : Word := s.pc - 2

/-! ### Errors -/

/-- The kind of an error. -/
def Error.kind : Error → ErrorKind
  | .loadError _ => .loadError
  | .invalidInstruction _ _ => .invalidInstruction
  | .stackOverflow _ => .stackOverflow
  | .stackUnderflow _ => .stackUnderflow
  | .inputIndexOutOfRange _ => .inputIndexOutOfRange
  | .reservedWrite _ => .reservedWrite
  | .keyRegisterOutOfRange _ => .keyRegisterOutOfRange

/-- The code column of R112 (the spec's own numbers, decision D21). -/
def ErrorKind.code : ErrorKind → Nat
  | .loadError => 1
  | .invalidInstruction => 2
  | .stackOverflow => 3
  | .stackUnderflow => 4
  | .inputIndexOutOfRange => 5
  | .reservedWrite => 100
  | .keyRegisterOutOfRange => 101

/-- Whether an error of the kind can halt the core (the "fatal" column of R112). -/
def ErrorKind.canHalt : ErrorKind → Bool
  | .loadError => false
  | .invalidInstruction => true
  | .stackOverflow => true
  | .stackUnderflow => true
  | .inputIndexOutOfRange => false
  | .reservedWrite => true
  | .keyRegisterOutOfRange => true

/-- `raise e` (R9, R111): report the error with its info; nothing else is saved and `pc` is not redirected. -/
def State.raise (s : State) (e : Error) : State := s.emit (.raised e)

/-- Taking a fatal error (R71): `run <- Halted(e)` just before the `raise`. -/
def State.raiseFatal (s : State) (e : Error) : State := (s.setRun (.halted e.kind)).raise e

/-- An invalid word (R70): `pc` has been advanced; whether the core halts is `ON_INVALID`. -/
def State.raiseInvalid (s : State) (d : Dialect) (word address : Word) : State :=
  match d.onInvalid with
  | .halt => s.raiseFatal (.invalidInstruction word address)
  | .skip => s.raise (.invalidInstruction word address)

/-- The way back from an error, and the only one from `Halted` (R126, R130): `reset()` (R129). The counters of the
environment, the draws taken and the trace, are not the core's and go on (logs 16 and 17). -/
def State.resetCore (s : State) : State := { State.reset with draws := s.draws, trace := s.trace }

/-! ### The call stack -/

/-- Push a return address (R21), or nothing when 16 entries are in use (R20). -/
def State.push? (s : State) (w : Word) : Option State :=
  if h : s.sp.val < 16 then
    some ((s.setStack (s.stack.set s.sp.val w h)).setSp ⟨s.sp.val + 1, by omega⟩)
  else none

/-- Pop the newest return address (R21), or nothing when the stack is empty (R20). -/
def State.pop? (s : State) : Option (Word × State) :=
  if h : 0 < s.sp.val then
    some (s.stack[s.sp.val - 1]'(by omega), s.setSp ⟨s.sp.val - 1, by omega⟩)
  else none

/-! ### Stores -/

/-- How a run of stores ended: all done, or stopped at a `raise` with nothing after it run (R9, R72). -/
inductive Stored where
  | done (s : State)
  | stopped (s : State)
deriving DecidableEq, Repr

/-- The state after the stores, with what comes after them when none stopped. -/
def Stored.andThen (f : State → State) : Stored → State
  | .done s => f s
  | .stopped s => s

/-- Store a byte at a reduced address. -/
def State.pokeByte (s : State) (ea : Nat) (b : Byte) : State := s.setMem (s.mem.write ea b)

/-- `MemWrite(a, 1, b)` with the reserved-region policy (R40). -/
def storeByteIn (d : Dialect) (a : Word) (b : Byte) (s : State) : Stored :=
  if effective a < reservedTop then
    match d.reservedWrite with
    | .ignore => .done s
    | .allow => .done (s.pokeByte (effective a) b)
    | .fault => .stopped (s.raiseFatal (.reservedWrite (BitVec.ofNat 16 (effective a))))
  else .done (s.pokeByte (effective a) b)

/-- Store bytes at `a`, `a + 1`, … in that order (R37). -/
def storeBytesIn (d : Dialect) (a : Word) : List Byte → State → Stored
  | [], s => .done s
  | b :: bs, s =>
    match storeByteIn d a b s with
    | .done t => storeBytesIn d (a + 1) bs t
    | .stopped t => .stopped t

/-! ### The random source -/

/-- `draw()` (R97): the environment's next byte, exactly one taken. -/
def State.draw (s : State) : Byte × State := (Config.draw s.draws, s.setDraws (s.draws + 1))

end Sys2Proof.Machine
end

