-- ==== Sys2Proof/Machine/Flags.lean ====
section
/-! DEFINITION. The flag computations (R14, R90 to R94, R99) and the order of the two writes (R15). -/

namespace Sys2Proof.Machine

/-- Carry of 8XY4: the sum of the unsigned values exceeds 255 (R90). -/
def carry (a b : Byte) : Bool := decide (255 < a.toNat + b.toNat)

/-- No borrow of 8XY5 and 8XY7: minuend at least subtrahend (R91, R93). -/
def noBorrow (a b : Byte) : Bool := decide (b.toNat ≤ a.toNat)

/-- The bit 8XY6 shifts out, bit 0 (R92). -/
def shiftedOutRight (a : Byte) : Bool := a.getLsbD 0

/-- The bit 8XYE shifts out, bit 7 (R94). -/
def shiftedOutLeft (a : Byte) : Bool := a.getLsbD 7

/-- FX1E's flag of one dialect: the sum leaves the 12-bit range (R99; the threshold is general knowledge, log 10). -/
def indexOverflow (i : Word) (b : Byte) : Bool := decide (0x0FFF < i.toNat + b.toNat)

/-- A flag's value, 0 or 1 (R14). -/
def flagByte (f : Bool) : Byte := if f then 1 else 0

/-- `VF <- f`. -/
def State.setVF (s : State) (f : Bool) : State := s.setReg flagReg (flagByte f)

/-- The destination first and `VF` last (R15), both values computed before. -/
def State.setRegFlag (s : State) (x : Reg) (b : Byte) (f : Bool) : State := (s.setReg x b).setVF f

end Sys2Proof.Machine
end

