-- ==== Sys2Proof/Machine/Operands.lean ====
section
/-! DEFINITION. The operand forms: key numbers (R104), shift sources (R92), register ranges (R54, R102, R103), glyph addresses
(R100), decimal digits (R101), sprite rows and coordinates (R74), and the skip of the conditional instructions. -/

namespace Sys2Proof.Machine

/-- `KeyIndex(v)` (R104): the key that a register value names, or nothing where the dialect makes it an error. -/
def keyIndexIn (mode : KeyIndexMode) (b : Byte) : Option Key :=
  match mode with
  | .lowNibble => some (Fin.ofNat 16 b.toNat)
  | .fault => if h : b.toNat < 16 then some ⟨b.toNat, h⟩ else none

/-- The source operand of 8XY6 and 8XYE (R92, R94). -/
def shiftOperandIn (src : ShiftSource) (x y : Reg) (s : State) : Byte :=
  match src with
  | .vx => s.reg x
  | .vy => s.reg y

/-- The register indices `0` to `x` inclusive, rising (R54). -/
def regsTo (x : Reg) : List Reg := (List.finRange 16).filter (· ≤ x)

/-- `V[r] <- MemRead(a)` for the registers of the list, at `a`, `a + 1`, … in that order (R103). -/
def loadRegs (a : Word) : List Reg → State → State
  | [], s => s
  | r :: rs, s => loadRegs (a + 1) rs (s.setReg r (s.readByte a))

/-- `FONT_BASE + GLYPH_BYTES * (b & 0x0F)` (R100). -/
def glyphAddress (b : Byte) : Word := BitVec.ofNat 16 (fontBase + glyphBytes * (b.toNat % 16))

/-- The hundreds, tens and ones of a byte (R101). -/
def decimalDigits (b : Byte) : List Byte :=
  [BitVec.ofNat 8 (b.toNat / 100), BitVec.ofNat 8 (b.toNat / 10 % 10), BitVec.ofNat 8 (b.toNat % 10)]

/-- The bytes of rows 0 to `n - 1` of the sprite at `I` (R74). -/
def spriteRows (s : State) (n : Nibble) : List Byte :=
  (List.range n.toNat).map (fun r => s.readByte (s.i + BitVec.ofNat 16 r))

/-- The start column, `V[X] mod FB_W` (R75). -/
def startColumn (b : Byte) : Nat := b.toNat % 64

/-- The start row, `V[Y] mod FB_H` (R75). -/
def startRow (b : Byte) : Nat := b.toNat % 32

/-- A skip: `pc <- (pc + 2) mod 0x10000` when the condition holds (R79). -/
def State.skipIf (s : State) (c : Bool) : State := if c then s.setPc (s.pc + 2) else s

/-- `I <- (I + X + 1) mod 0x10000` when the dialect increments `I` (R102, R103). -/
def State.incrementIIn (s : State) (d : Dialect) (x : Reg) : State :=
  if d.memOpsIncrementI then s.setI (s.i + BitVec.ofNat 16 (x.val + 1)) else s

end Sys2Proof.Machine
end

