-- ==== Sys2Proof/Machine/Alu.lean ====
section
/-! DEFINITION. The register and arithmetic instructions (spec/43_alu.md R84 to R97). Byte sums and differences wrap modulo
256 (R96). A meaning named `…In` is the instruction in any dialect; the one named `exec…` is it in the default dialect. -/

namespace Sys2Proof.Machine

/-- `6XNN` LD Vx, byte (R84). -/
def execLdByte (x : Reg) (nn : Byte) (s : State) : Result := .next (s.setReg x nn)

/-- `7XNN` ADD Vx, byte (R85): no flag. -/
def execAddByte (x : Reg) (nn : Byte) (s : State) : Result := .next (s.setReg x (s.reg x + nn))

/-- `8XY0` LD Vx, Vy (R86). -/
def execLdReg (x y : Reg) (s : State) : Result := .next (s.setReg x (s.reg y))

/-- The write of a logic instruction (R87 to R89): the destination, then `VF <- 0` where the dialect says so. -/
def logicWriteIn (d : Dialect) (x : Reg) (b : Byte) (s : State) : Result :=
  .next (if d.logicResetsVF then s.setRegFlag x b false else s.setReg x b)

/-- `8XY1` OR Vx, Vy in a dialect (R87). -/
def orRegIn (d : Dialect) (x y : Reg) (s : State) : Result := logicWriteIn d x (s.reg x ||| s.reg y) s

/-- `8XY2` AND Vx, Vy in a dialect (R88). -/
def andRegIn (d : Dialect) (x y : Reg) (s : State) : Result := logicWriteIn d x (s.reg x &&& s.reg y) s

/-- `8XY3` XOR Vx, Vy in a dialect (R89). -/
def xorRegIn (d : Dialect) (x y : Reg) (s : State) : Result := logicWriteIn d x (s.reg x ^^^ s.reg y) s

/-- `8XY1` OR Vx, Vy (R87). -/
def execOrReg (x y : Reg) (s : State) : Result := orRegIn dialect x y s

/-- `8XY2` AND Vx, Vy (R88). -/
def execAndReg (x y : Reg) (s : State) : Result := andRegIn dialect x y s

/-- `8XY3` XOR Vx, Vy (R89). -/
def execXorReg (x y : Reg) (s : State) : Result := xorRegIn dialect x y s

/-- `8XY4` ADD Vx, Vy (R90). -/
def execAddReg (x y : Reg) (s : State) : Result :=
  .next (s.setRegFlag x (s.reg x + s.reg y) (carry (s.reg x) (s.reg y)))

/-- `8XY5` SUB Vx, Vy (R91). -/
def execSubReg (x y : Reg) (s : State) : Result :=
  .next (s.setRegFlag x (s.reg x - s.reg y) (noBorrow (s.reg x) (s.reg y)))

/-- `8XY7` SUBN Vx, Vy (R93). -/
def execSubn (x y : Reg) (s : State) : Result :=
  .next (s.setRegFlag x (s.reg y - s.reg x) (noBorrow (s.reg y) (s.reg x)))

/-- `8XY6` SHR in a dialect (R92): a logical shift by one. -/
def shrIn (d : Dialect) (x y : Reg) (s : State) : Result :=
  .next (s.setRegFlag x (shiftOperandIn d.shiftSource x y s >>> 1) (shiftedOutRight (shiftOperandIn d.shiftSource x y s)))

/-- `8XYE` SHL in a dialect (R94): a shift by one. -/
def shlIn (d : Dialect) (x y : Reg) (s : State) : Result :=
  .next (s.setRegFlag x (shiftOperandIn d.shiftSource x y s <<< 1) (shiftedOutLeft (shiftOperandIn d.shiftSource x y s)))

/-- `8XY6` SHR Vx, Vy (R92). -/
def execShr (x y : Reg) (s : State) : Result := shrIn dialect x y s

/-- `8XYE` SHL Vx, Vy (R94). -/
def execShl (x y : Reg) (s : State) : Result := shlIn dialect x y s

/-- `CXNN` RND Vx, byte (R95): one draw, always masked. FREE VALUE: the drawn byte (log 16). -/
def execRnd (x : Reg) (nn : Byte) (s : State) : Result := .next (s.draw.2.setReg x (s.draw.1 &&& nn))

end Sys2Proof.Machine
end

