-- ==== Sys2Proof/Machine/Display.lean ====
section
/-! DEFINITION. The display instructions 00E0 and DXYN (spec/41_display.md R73 to R75). -/

namespace Sys2Proof.Machine

/-- `fb[x][y]`. -/
def pixel (g : Framebuffer) (x : Fin 64) (y : Fin 32) : Bool := (g[x.val])[y.val]

/-- `fb[x][y] <- not fb[x][y]`. -/
def togglePixel (g : Framebuffer) (x : Fin 64) (y : Fin 32) : Framebuffer :=
  g.set x.val ((g[x.val]).set y.val (!pixel g x y))

/-- The grid with every pixel false (R73). -/
def clearGrid : Framebuffer := Vector.replicate 64 (Vector.replicate 32 false)

/-- Column `c` of a sprite row is bit `7 - c`: the most significant bit is leftmost (R74). PRESUMED, unsafe (log 20). -/
def spriteBit (row : Byte) (c : Nat) : Bool := row.getLsbD (7 - c)

/-- One bit of the sprite, in row `r` and column `c` (R74, R75): where it is 1, the wrapped pixel toggles, and a pixel that
was on is a hit. The pair is the grid and `hit`. -/
def drawBit (x0 y0 : Nat) (row : Byte) (r : Nat) (acc : Framebuffer × Bool) (c : Nat) : Framebuffer × Bool :=
  if spriteBit row c then
    (togglePixel acc.1 (Fin.ofNat 64 (x0 + c)) (Fin.ofNat 32 (y0 + r)),
      acc.2 || pixel acc.1 (Fin.ofNat 64 (x0 + c)) (Fin.ofNat 32 (y0 + r)))
  else acc

/-- The columns 0 to 7 of row `r`. -/
def drawRow (x0 y0 : Nat) (row : Byte) (r : Nat) (acc : Framebuffer × Bool) : Framebuffer × Bool :=
  (List.range 8).foldl (drawBit x0 y0 row r) acc

/-- The rows of the list, the first of them row `r` of the sprite. -/
def drawRows (x0 y0 : Nat) : List Byte → Nat → Framebuffer × Bool → Framebuffer × Bool
  | [], _, acc => acc
  | row :: rows, r, acc => drawRows x0 y0 rows (r + 1) (drawRow x0 y0 row r acc)

/-- The sprite of DXYN drawn onto the framebuffer of `s`: the grid and `hit` (R75). -/
def drawSprite (x y : Reg) (n : Nibble) (s : State) : Framebuffer × Bool :=
  drawRows (startColumn (s.reg x)) (startRow (s.reg y)) (spriteRows s n) 0 (s.fb, false)

/-- `00E0` CLS (R73). -/
def execCls (s : State) : Result := .next (s.setFb clearGrid)

/-- `DXYN` DRW Vx, Vy, nibble (R75): `VF` is written last, with the coordinates read before. -/
def execDrw (x y : Reg) (n : Nibble) (s : State) : Result :=
  .next ((s.setFb (drawSprite x y n s).1).setVF (drawSprite x y n s).2)

end Sys2Proof.Machine
end

