-- ==== Sys2Proof/Machine/Flow.lean ====
section
/-! DEFINITION. The control-transfer instructions (spec/42_flow.md R76 to R83). On entry `pc` is the fetch address plus 2. -/

namespace Sys2Proof.Machine

/-- `00EE` RET (R76): pop into `pc`, or take `StackUnderflow` (R115). -/
def execRet (s : State) : Result :=
  match s.pop? with
  | some (w, t) => .next (t.setPc w)
  | none => .next (s.raiseFatal (.stackUnderflow s.fetchAddress))

/-- `1NNN` JP addr (R77). -/
def execJp (nnn : Addr12) (s : State) : Result := .next (s.setPc (nnn.setWidth 16))

/-- `2NNN` CALL addr (R78): push the advanced `pc` and jump, or take `StackOverflow` (R114). -/
def execCall (nnn : Addr12) (s : State) : Result :=
  match s.push? s.pc with
  | some t => .next (t.setPc (nnn.setWidth 16))
  | none => .next (s.raiseFatal (.stackOverflow s.fetchAddress))

/-- `3XNN` SE Vx, byte (R79). -/
def execSeByte (x : Reg) (nn : Byte) (s : State) : Result := .next (s.skipIf (s.reg x == nn))

/-- `4XNN` SNE Vx, byte (R80). -/
def execSneByte (x : Reg) (nn : Byte) (s : State) : Result := .next (s.skipIf (s.reg x != nn))

/-- `5XY0` SE Vx, Vy (R81). -/
def execSeReg (x y : Reg) (s : State) : Result := .next (s.skipIf (s.reg x == s.reg y))

/-- `9XY0` SNE Vx, Vy (R82). -/
def execSneReg (x y : Reg) (s : State) : Result := .next (s.skipIf (s.reg x != s.reg y))

/-- `BNNN` JP V0, addr (R83): the base is always `V[0]`, and the sum is kept in 16 bits. -/
def execJpV0 (nnn : Addr12) (s : State) : Result :=
  .next (s.setPc (nnn.setWidth 16 + (s.reg 0).setWidth 16))

end Sys2Proof.Machine
end

