-- ==== Sys2Proof/Machine/Index.lean ====
section
/-! DEFINITION. The index-register and memory instructions (spec/44_index_memory.md R98 to R103). -/

namespace Sys2Proof.Machine

/-- `ANNN` LD I, addr (R98). -/
def execLdI (nnn : Addr12) (s : State) : Result := .next (s.setI (nnn.setWidth 16))

/-- `FX1E` ADD I, Vx in a dialect (R99): the sum in 16 bits; the flag, where the dialect has it, last and from the old
operands. -/
def addIVxIn (d : Dialect) (x : Reg) (s : State) : Result :=
  let t := s.setI (s.i + (s.reg x).setWidth 16)
  .next (if d.addISetsVF then t.setVF (indexOverflow s.i (s.reg x)) else t)

/-- `FX1E` ADD I, Vx (R99). -/
def execAddIVx (x : Reg) (s : State) : Result := addIVxIn dialect x s

/-- `FX29` LD F, Vx (R100). -/
def execLdFVx (x : Reg) (s : State) : Result := .next (s.setI (glyphAddress (s.reg x)))

/-- `FX33` LD B, Vx in a dialect (R101): hundreds, tens and ones at `I`, `I + 1`, `I + 2`; `I` unchanged. -/
def ldBVxIn (d : Dialect) (x : Reg) (s : State) : Result :=
  .next ((storeBytesIn d s.i (decimalDigits (s.reg x)) s).andThen id)

/-- `FX33` LD B, Vx (R101). -/
def execLdBVx (x : Reg) (s : State) : Result := ldBVxIn dialect x s

/-- `FX55` LD [I], Vx in a dialect (R102): `V[0]` to `V[X]` at `I` on, then the increment of `I` where the dialect has it and
no store stopped. -/
def ldMemVxIn (d : Dialect) (x : Reg) (s : State) : Result :=
  .next ((storeBytesIn d s.i ((regsTo x).map s.reg) s).andThen (fun t => t.incrementIIn d x))

/-- `FX55` LD [I], Vx (R102). -/
def execLdMemVx (x : Reg) (s : State) : Result := ldMemVxIn dialect x s

/-- `FX65` LD Vx, [I] in a dialect (R103). -/
def ldVxMemIn (d : Dialect) (x : Reg) (s : State) : Result :=
  .next ((loadRegs s.i (regsTo x) s).incrementIIn d x)

/-- `FX65` LD Vx, [I] (R103). -/
def execLdVxMem (x : Reg) (s : State) : Result := ldVxMemIn dialect x s

end Sys2Proof.Machine
end

