-- ==== Sys2Proof/Machine/Input.lean ====
section
/-! DEFINITION. The input and timer instructions (spec/45_input_timers.md R104 to R110). -/

namespace Sys2Proof.Machine

/-- A key skip in a dialect (R104 to R106): skip when the named key is in the state asked for, or take the model-only error
where the dialect makes the value one. -/
def skipOnKeyIn (d : Dialect) (pressed : Bool) (x : Reg) (s : State) : Result :=
  match keyIndexIn d.keyIndexMode (s.reg x) with
  | some k => .next (s.skipIf (s.keyAt k == pressed))
  | none => .next (s.raiseFatal (.keyRegisterOutOfRange (s.reg x)))

/-- `EX9E` SKP Vx (R105). -/
def execSkp (x : Reg) (s : State) : Result := skipOnKeyIn dialect true x s

/-- `EXA1` SKNP Vx (R106). -/
def execSknp (x : Reg) (s : State) : Result := skipOnKeyIn dialect false x s

/-- `FX0A` LD Vx, K (R107): suspend; `setKey` completes it (R123). -/
def execLdVxK (x : Reg) (s : State) : Result := .next (s.setRun (.awaitingKey x))

/-- `FX07` LD Vx, DT (R108). -/
def execLdVxDT (x : Reg) (s : State) : Result := .next (s.setReg x s.dt)

/-- `FX15` LD DT, Vx (R109). -/
def execLdDTVx (x : Reg) (s : State) : Result := .next (s.setDt (s.reg x))

/-- `FX18` LD ST, Vx (R110): the write never beeps. -/
def execLdSTVx (x : Reg) (s : State) : Result := .next (s.setSt (s.reg x))

end Sys2Proof.Machine
end

