-- ==== Sys2Proof/Machine/Engine.lean ====
section
/-! DEFINITION. The fetch, advance, decode of spec/40_engine.md R63 to R66, around any execute phase. -/

namespace Sys2Proof.Machine

/-- `step()` in a dialect, over an execute phase: nothing outside `Running` (R63); else fetch (R64), `pc <- a + 2` (R65),
decode (R66), and the instruction or the invalid word (R70). -/
def engineStepIn (d : Dialect) (execute : Instr → State → Result) (s : State) : Result :=
  match s.run with
  | .halted _ => .next s
  | .awaitingKey _ => .next s
  | .running =>
    match decodeWord d.strict59 (s.fetch16 s.pc) with
    | .instr i => execute i (s.setPc (s.pc + 2))
    | .invalid _ => .next ((s.setPc (s.pc + 2)).raiseInvalid d (s.fetch16 s.pc) s.pc)

/-- Place the bytes of an instruction where the next step fetches, and let it fetch: the run state must be `Running`. -/
def State.placeBytes (s : State) (a : Word) : List Byte → State
  | [] => s
  | b :: bs => (s.pokeByte (effective a) b).placeBytes (a + 1) bs

end Sys2Proof.Machine
end

