-- ==== Sys2Proof/Machine/Step.lean ====
section
/-! DEFINITION. One step of the machine: `step()` of spec/40_engine.md R63 in the default dialect. -/

namespace Sys2Proof.Machine

/-- `step()` (R63 to R72). -/
def step (s : State) : Host.Outcome State Fault Refusal := engineStepIn dialect exec s

/-- `s` with the instruction that the opcode table numbers `w` (of `nbits` bits) at `pc`, and the core `Running`, so that the
next step fetches and runs it (log 24). It stands for `loadProgram` and a jump, and is no operation of the core. -/
def State.withFetchWord (s : State) (nbits w : Nat) : State :=
  (s.placeBytes s.pc (wordBytes (tableWord nbits w))).setRun .running

end Sys2Proof.Machine
end

