-- ==== Sys2Proof/Machine/Dialects.lean ====
section
/-! DEFINITION. The core in any dialect of spec/00_scope.md R5: "the model may take the parameter as an argument to cover
other CHIP-8 dialects". Only the instructions whose rules name a parameter differ from `exec`. -/

namespace Sys2Proof.Machine

/-- The execute phase in a dialect. -/
def execIn (d : Dialect) (i : Instr) (s : State) : Result :=
  match i with
  | .cls => execCls s
  | .ret => execRet s
  | .jp nnn => execJp nnn s
  | .call nnn => execCall nnn s
  | .seByte x nn => execSeByte x nn s
  | .sneByte x nn => execSneByte x nn s
  | .seReg x y => execSeReg x y s
  | .ldByte x nn => execLdByte x nn s
  | .addByte x nn => execAddByte x nn s
  | .ldReg x y => execLdReg x y s
  | .orReg x y => orRegIn d x y s
  | .andReg x y => andRegIn d x y s
  | .xorReg x y => xorRegIn d x y s
  | .addReg x y => execAddReg x y s
  | .subReg x y => execSubReg x y s
  | .shr x y => shrIn d x y s
  | .subn x y => execSubn x y s
  | .shl x y => shlIn d x y s
  | .sneReg x y => execSneReg x y s
  | .ldI nnn => execLdI nnn s
  | .jpV0 nnn => execJpV0 nnn s
  | .rnd x nn => execRnd x nn s
  | .drw x y n => execDrw x y n s
  | .skp x => skipOnKeyIn d true x s
  | .sknp x => skipOnKeyIn d false x s
  | .ldVxDT x => execLdVxDT x s
  | .ldVxK x => execLdVxK x s
  | .ldDTVx x => execLdDTVx x s
  | .ldSTVx x => execLdSTVx x s
  | .addIVx x => addIVxIn d x s
  | .ldFVx x => execLdFVx x s
  | .ldBVx x => ldBVxIn d x s
  | .ldMemVx x => ldMemVxIn d x s
  | .ldVxMem x => ldVxMemIn d x s

/-- `step()` in a dialect. -/
def stepIn (d : Dialect) (s : State) : Result := engineStepIn d (execIn d) s

end Sys2Proof.Machine
end

