-- ==== Sys2Proof/Machine/Surface.lean ====
section
/-! DEFINITION. The core's external surface (spec/60_exceptions.md R111 to R128, spec/70_reset_and_hazards.md R129 to R132):
the six operations the host calls, one at a time, each atomic, in any order (R125). `step` alone is the machine's step; the
others are the host's inputs between steps (log 21). -/

namespace Sys2Proof.Machine

/-! ### Timers -/

/-- A timer after a tick: one less while it is nonzero, clamped at 0 (R25, R120). -/
def countdown (b : Byte) : Byte := if b = 0 then 0 else b - 1

/-- `tickTimers()` (R120): in every run state; a beep exactly when `ST` goes from 1 to 0 (R121). -/
def tickTimers (s : State) : State :=
  let t := (s.setDt (countdown s.dt)).setSt (countdown s.st)
  if s.st = 1 then t.emit .beep else t

/-! ### Keys -/

/-- Completion of FX0A by key `k` (R123): `V[x] <- k`, then `run <- Running`; nothing in another run state. -/
def completeKeyWait (k : Key) (s : State) : State :=
  match s.run with
  | .awaitingKey x => (s.setReg x (BitVec.ofNat 8 k.val)).setRun .running
  | .running => s
  | .halted _ => s

/-- `setKey` of a key that exists (R122): write the latch, and complete FX0A on a new key-down transition only. -/
def pressKey (k : Key) (pressed : Bool) (s : State) : State :=
  if pressed && !s.keyAt k then completeKeyWait k (s.setKeyAt k pressed) else s.setKeyAt k pressed

/-- `setKey(index, pressed)` (R122): an index outside 0 to 15 is reported and changes nothing else (R117). -/
def setKey (index : Int) (pressed : Bool) (s : State) : State :=
  if h : 0 ≤ index ∧ index < 16 then pressKey ⟨index.toNat, by omega⟩ pressed s
  else s.raise (.inputIndexOutOfRange index)

/-! ### Framebuffer, load -/

/-- `getFramebuffer()` (R124): a copy of the whole grid. -/
def getFramebuffer (s : State) : Framebuffer := s.fb

/-- `loadProgram(bytes, font)` (R131, R132): both checks before any write, `LoadError` and nothing written where one fails
(R116). -/
def loadProgram (bytes : List Byte) (font : Option (List Byte)) (s : State) : State :=
  if memSize - loadAddr.toNat < bytes.length then s.raise (.loadError bytes.length)
  else
    match font with
    | none => s.setMem (s.mem.writeList loadAddr.toNat bytes)
    | some f =>
      if f.length = fontBytes then s.setMem ((s.mem.writeList loadAddr.toNat bytes).writeList fontBase f)
      else s.raise (.loadError f.length)

/-! ### The surface -/

/-- One call of the host (R125). -/
inductive HostCall where
  | step
  | tickTimers
  | setKey (index : Int) (pressed : Bool)
  | getFramebuffer
  | loadProgram (bytes : List Byte) (font : Option (List Byte))
  | reset
deriving DecidableEq, Repr

/-- What a call does to the core, over a `step()`. -/
def performWith (stepFn : State → Result) (c : HostCall) (s : State) : Result :=
  match c with
  | .step => stepFn s
  | .tickTimers => .next (tickTimers s)
  | .setKey index pressed => .next (setKey index pressed s)
  | .getFramebuffer => .next s
  | .loadProgram bytes font => .next (loadProgram bytes font s)
  | .reset => .next s.resetCore

/-- A call in the default dialect. -/
def perform (c : HostCall) (s : State) : Result := performWith step c s

/-- A call in a dialect. -/
def performIn (d : Dialect) (c : HostCall) (s : State) : Result := performWith (stepIn d) c s

/-! ### What a call returns -/

/-- The result of a `step()` to its caller (R63, R68). -/
inductive StepResult where
  | ok
  | awaitingKey
  | halted (e : ErrorKind)
  | error (e : Error)
deriving DecidableEq, Repr

/-- The error that an operation reported between two states, if it did: each reports at most one (R118). -/
def reportedError (before after : State) : Option Error :=
  match after.trace with
  | .raised e :: rest => if rest = before.trace then some e else none
  | _ => none

/-- What `step()` returns in a dialect when it is called in `s`: the run state outside `Running` (R63), else the error that
the step reported (R70, R71), `AwaitingKey` for an FX0A that suspended, or `Ok` (R68). -/
def stepResultIn (d : Dialect) (s : State) : Option StepResult :=
  match s.run, stepIn d s with
  | .halted e, _ => some (.halted e)
  | .awaitingKey _, _ => some .awaitingKey
  | .running, .next t =>
    match reportedError s t with
    | some e => some (.error e)
    | none => if t.run = .running then some .ok else some .awaitingKey
  | .running, .fault _ => none
  | .running, .refused _ => none

/-- What `step()` returns in the default dialect. -/
def stepResult (s : State) : Option StepResult := stepResultIn dialect s

end Sys2Proof.Machine
end

