-- ==== Sys2Proof/Safety.lean ====
section
/-! DEFINITION. The terms in which claims are made: frames, the invariant, reachability by any interleaving of host calls
(spec/60_exceptions.md R125), and the ends of a run (spec/70_reset_and_hazards.md R144). -/

namespace Sys2Proof.Machine

/-- The next state of an outcome, if it is one. -/
def nextOf : Result → Option State
  | .next t => some t
  | .fault _ => none
  | .refused _ => none

/-! ### Frames -/

/-- The pieces of state besides the general registers and memory. -/
inductive Part where
  | i | pc | sp | stack | dt | st | key | fb | run | draws | trace
deriving DecidableEq, Repr

/-- The piece is the same in both states. -/
def Part.Same (s t : State) : Part → Prop
  | .i => t.i = s.i
  | .pc => t.pc = s.pc
  | .sp => t.sp = s.sp
  | .stack => t.stack = s.stack
  | .dt => t.dt = s.dt
  | .st => t.st = s.st
  | .key => t.key = s.key
  | .fb => t.fb = s.fb
  | .run => t.run = s.run
  | .draws => t.draws = s.draws
  | .trace => t.trace = s.trace

/-- From `s` to `t` nothing changes but the registers `regs`, the pieces `parts` and the bytes at the reduced addresses
`stored`. -/
def Frame (regs : List Reg) (parts : List Part) (stored : List Nat) (s t : State) : Prop :=
  (∀ r : Reg, r ∉ regs → t.reg r = s.reg r) ∧
  (∀ p : Part, p ∉ parts → p.Same s t) ∧
  (∀ a : Word, effective a ∉ stored → t.readByte a = s.readByte a)

/-- The reduced addresses of the `n` bytes from `a` on (R36). -/
def window (a : Word) (n : Nat) : List Nat := (List.range n).map (fun k => effective (a + BitVec.ofNat 16 k))

/-! ### Invariants -/

/-- `Halted(e)` holds only an error that can halt the core (R31, R112). -/
def HaltIsFatal (s : State) : Prop := ∀ e, s.run = .halted e → e.canHalt = true

/-- A halt has been reported: "never silently treated as a no-op without signaling" (R70, R111). -/
def HaltIsReported (s : State) : Prop := ∀ e, s.run = .halted e → ∃ err, err.kind = e ∧ Event.raised err ∈ s.trace

/-- The invariant of the machine, in every dialect. -/
def Inv (s : State) : Prop := s.mem.wf ∧ HaltIsFatal s ∧ HaltIsReported s

/-- The bytes from the end of the font to the program-load offset are zero (R39: "reserved, zero after reset"). -/
def ReservedIsZero (s : State) : Prop := ∀ a, fontBase + fontBytes ≤ a → a < reservedTop → s.mem.read a = 0

/-- The states the core can be in, in a dialect: from reset by any interleaving of host calls (R125, R134). -/
inductive ReachableIn (d : Dialect) : State → Prop where
  | reset : ReachableIn d State.reset
  | call (c : HostCall) (s t : State) : ReachableIn d s → performIn d c s = .next t → ReachableIn d t

/-- A list of host calls, one after the other (R125). -/
def runCalls : List HostCall → State → Result
  | [], s => .next s
  | c :: cs, s =>
    match perform c s with
    | .next t => runCalls cs t
    | .fault f => .fault f
    | .refused r => .refused r

/-! ### The ends of a run -/

/-- The run has faulted: it reached `Halted(e)` (R144). No such state is final. -/
def Faulted (s : State) : Prop := ∃ e, s.run = .halted e

/-- The core waits for a key; with no further key-down it is stuck, a hang the model keeps (R144). -/
def WaitingForKey (s : State) : Prop := ∃ x, s.run = .awaitingKey x

/-- "a state whose next step leaves it unchanged" (R144), the idiom for done: a self-jump. -/
def Done (s : State) : Prop := s.run = .running ∧ step s = .next s

/-- A host schedule that ticks the timers again and again: the fairness premise of R125. -/
def TicksForever (schedule : Nat → HostCall) : Prop := ∀ n, ∃ m, n ≤ m ∧ schedule m = .tickTimers

/-! ### Comparing runs -/

/-- The states agree but for the sound timer. -/
def AgreeButSt (s t : State) : Prop := s.setSt 0 = t.setSt 0

/-- The states agree but for stack entries that hold no value a program can observe: those at `sp` and above (R21). -/
def AgreeOnLiveStack (s t : State) : Prop :=
  t = { s with stack := t.stack } ∧ ∀ k : Fin 16, k.val < s.sp.val → t.stack[k.val] = s.stack[k.val]

end Sys2Proof.Machine
end

