-- ==== Sys2Proof/Certificates/Slice0/Obligations.lean ====
section
/-! DEFINITION. The statements for the provers. Each docstring names the rule of spec/ it formalises. Where a clause rests on
a choice that the spec marks as its own decision (D<n> of spec/92_eei_decisions.md), or on general knowledge (G<n> of
spec/93_implementation_defined.md), the docstring says so. Statements over every `Dialect` rest on no default. -/

open Sys2Proof Sys2Proof.Machine

/-! ### Encoding -/

/-- Words written out from the opcode table, one or more of each family, decode to their instructions (30_encoding.md R52 to
R59), and two words of R60's list are invalid. Every encoding but those of 600A, 7005 and 1200 rests on decision D30 (log 5);
that 5121 is invalid in the strict dialect alone rests on decision D14, and that 0123 is invalid on decision D19 (log 14). -/
def Obligations.WrittenWordsDecode : Prop :=
  decodeWord true 0x600A = .instr (.ldByte 0 0x0A) ∧ decodeWord true 0x7005 = .instr (.addByte 0 0x05) ∧
  decodeWord true 0x1200 = .instr (.jp 0x200) ∧ decodeWord true 0x00E0 = .instr .cls ∧
  decodeWord true 0xD125 = .instr (.drw 1 2 5) ∧ decodeWord true 0x220C = .instr (.call 0x20C) ∧
  decodeWord true 0x8347 = .instr (.subn 3 4) ∧ decodeWord true 0x812E = .instr (.shl 1 2) ∧
  decodeWord true 0xF21E = .instr (.addIVx 2) ∧ decodeWord true 0xF265 = .instr (.ldVxMem 2) ∧
  decodeWord true 0xE59E = .instr (.skp 5) ∧ decodeWord true 0xF50A = .instr (.ldVxK 5) ∧
  decodeWord true 0x5121 = .invalid .compareNibble ∧ decodeWord false 0x5121 = .instr (.seReg 1 2) ∧
  decodeWord true 0x0123 = .invalid .zeroClass

/-- Decoding the bytes of any instruction gives it back, every operand at every value, in the strict and the lax dialect, and
leaves the bytes after it (R38, R51, R52, R67). -/
def Obligations.DecodeOfEncodedBytes : Prop :=
  ∀ (strict : Bool) (i : Instr) (rest : List Byte), decodeBytes strict (encodeBytes i ++ rest) = (.instr i, rest)

/-- In the strict dialect a word that decodes is the word of its instruction: no two words are one instruction (R67). -/
def Obligations.EncodeOfDecodedWord : Prop :=
  ∀ (w : Word) (i : Instr), decodeWord true w = .instr i → encode i = w

/-- The decoder rejects exactly the words of R60's list, each under its line of the list (decisions D14, D19). -/
def Obligations.DecoderRejectsTheInvalidWords : Prop :=
  ∀ (strict : Bool) (w : Word) (why : Invalid), decodeWord strict w = .invalid why ↔ invalidBecause strict w = some why

/-- The decoder reads the opcode table: a word decodes to an instruction exactly when it is in that instruction's row (R60,
R67; the table's rows are decision D30). -/
def Obligations.DecoderReadsTheOpcodeTable : Prop :=
  (∀ (w : Word) (i : Instr), decodeWord true w = .instr i → ∃ r ∈ opcodeRows, r.mnemonic = rowMnemonic i ∧ r.matches w = true) ∧
  (∀ (w : Word) (r : OpcodeRow), r ∈ opcodeRows → r.matches w = true →
    ∃ i, decodeWord true w = .instr i ∧ rowMnemonic i = r.mnemonic)

/-! ### The engine -/

/-- Fetch is big-endian, each byte's address reduced modulo 4096 on its own (R38, R36). -/
def Obligations.FetchIsBigEndian : Prop :=
  ∀ (s : State) (a : Word),
    (s.fetch16 a).toNat = 256 * (s.mem.read (a.toNat % 4096)).toNat + (s.mem.read ((a.toNat + 1) % 4096)).toNat

/-- A step in `Running` whose word decodes to `i` is `exec i` on the state with `pc` advanced by 2 modulo 0x10000, and nothing
else (R64 to R66; the modulus is decision D3). -/
def Obligations.StepRunsTheDecodedInstruction : Prop :=
  ∀ (s : State) (i : Instr), s.run = .running → decodeWord true (s.fetch16 s.pc) = .instr i →
    step s = exec i (s.setPc (BitVec.ofNat 16 (s.pc.toNat + 2)))

/-- A step outside `Running` changes nothing and returns the run state, in every dialect (R63; decision D16, log 15). -/
def Obligations.StepOutsideRunningChangesNothing : Prop :=
  (∀ (s : State) (x : Reg), s.run = .awaitingKey x →
    step s = .next s ∧ stepResult s = some .awaitingKey ∧
    ∀ d : Dialect, stepIn d s = .next s ∧ stepResultIn d s = some .awaitingKey) ∧
  (∀ (s : State) (e : ErrorKind), s.run = .halted e →
    step s = .next s ∧ stepResult s = some (.halted e) ∧
    ∀ d : Dialect, stepIn d s = .next s ∧ stepResultIn d s = some (.halted e))

/-- An invalid word (R70), in every dialect: `pc` is advanced, the error is reported with the word and its address, the core
halts or not by `ON_INVALID`, and no other state changes. -/
def Obligations.InvalidWordIsReported : Prop :=
  ∀ (d : Dialect) (s : State) (why : Invalid), s.run = .running → decodeWord d.strict59 (s.fetch16 s.pc) = .invalid why →
    stepIn d s = .next (((s.setPc (s.pc + 2)).setRun
      (match d.onInvalid with | .halt => .halted .invalidInstruction | .skip => .running)).emit
        (.raised (.invalidInstruction (s.fetch16 s.pc) s.pc)))

/-- `InvalidInstruction` is reported for every invalid word fetched in `Running`, and by no other step (R113). -/
def Obligations.OnlyFetchedInvalidWordsAreReported : Prop :=
  ∀ (d : Dialect) (s t : State), stepIn d s = .next t →
    ((∃ w a, t.trace = .raised (.invalidInstruction w a) :: s.trace) ↔
      (s.run = .running ∧ wordWellFormed d.strict59 (s.fetch16 s.pc) = false))

/-- Every instruction, in every state and every dialect, has a next state, and so has every step: no instruction and no memory
access faults (R36, R67, R71). -/
def Obligations.EveryStepAnswersNext : Prop :=
  (∀ (i : Instr) (s : State), ∃ t, exec i s = .next t) ∧ (∀ s : State, ∃ t, step s = .next t) ∧
  (∀ (d : Dialect) (i : Instr) (s : State), ∃ t, execIn d i s = .next t) ∧
  (∀ (d : Dialect) (s : State), ∃ t, stepIn d s = .next t)

/-- Which instruction raises which error, with its info, and that each halts the core and reports once (R71, R112): CALL at
depth 16, RET at depth 0, and the two model-only errors under their parameters. No other instruction raises an error. -/
def Obligations.OnlyTheseInstructionsRaise : Prop :=
  ∀ (d : Dialect) (i : Instr) (s t : State), execIn d i s = .next t →
    t.trace = s.trace ∨ ∃ e, t.trace = .raised e :: s.trace ∧ t.run = .halted e.kind ∧
      ((i = .ret ∧ s.sp.val = 0 ∧ e = .stackUnderflow (s.pc - 2)) ∨
       (∃ nnn, i = .call nnn ∧ s.sp.val = 16 ∧ e = .stackOverflow (s.pc - 2)) ∨
       (d.reservedWrite = .fault ∧ (∃ x, i = .ldBVx x ∨ i = .ldMemVx x) ∧ ∃ ea, ea.toNat < 0x200 ∧ e = .reservedWrite ea) ∨
       (d.keyIndexMode = .fault ∧ ∃ x, (i = .skp x ∨ i = .sknp x) ∧ 15 < (s.reg x).toNat ∧
          e = .keyRegisterOutOfRange (s.reg x)))

/-- `exec`, `step` and `perform` are those of the default dialect, whose settings are the defaults of R5 (the spec's decisions
D7, D9 to D14 and D16). -/
def Obligations.ExecIsTheDefaultDialect : Prop :=
  dialect = ⟨.vx, false, false, false, .lowNibble, .ignore, true, .halt⟩ ∧
  (∀ (i : Instr) (s : State), exec i s = execIn dialect i s) ∧ (∀ s : State, step s = stepIn dialect s) ∧
  (∀ (c : HostCall) (s : State), perform c s = performIn dialect c s)

/-! ### Control flow -/

/-- 1NNN sets `pc` to exactly the 12-bit operand (R77). BNNN sets it to `NNN + V[0]`, which never wraps (the 16-bit sum is the
spec's decision D3, log 6; R83). -/
def Obligations.JumpsSetPc : Prop :=
  (∀ (nnn : Addr12) (s : State), exec (.jp nnn) s = .next (s.setPc (BitVec.ofNat 16 nnn.toNat))) ∧
  (∀ (nnn : Addr12) (s : State), exec (.jpV0 nnn) s = .next (s.setPc (BitVec.ofNat 16 (nnn.toNat + (s.reg 0).toNat)))) ∧
  (∀ (nnn : Addr12) (b : Byte), nnn.toNat + b.toNat < 0x10000)

/-- 2NNN below depth 16 pushes the advanced `pc` and jumps; at depth 16 it halts with `StackOverflow`, stack and `pc` left as
they are (R78). On entry `pc` is the fetch address plus 2, so `pc - 2` is the address reported. -/
def Obligations.CallPushesOrOverflows : Prop :=
  (∀ (nnn : Addr12) (s : State) (k : Nat) (hk : k < 16), s.sp.val = k →
    exec (.call nnn) s = .next (((s.setStack (s.stack.set k s.pc hk)).setSp ⟨k + 1, Nat.succ_lt_succ hk⟩).setPc
      (BitVec.ofNat 16 nnn.toNat))) ∧
  (∀ (nnn : Addr12) (s : State), s.sp.val = 16 →
    exec (.call nnn) s = .next ((s.setRun (.halted .stackOverflow)).emit (.raised (.stackOverflow (s.pc - 2)))))

/-- 00EE above depth 0 pops into `pc`; at depth 0 it halts with `StackUnderflow` (R76). -/
def Obligations.ReturnPopsOrUnderflows : Prop :=
  (∀ (s : State) (k : Nat) (hk : k < 16), s.sp.val = k + 1 →
    exec .ret s = .next ((s.setSp ⟨k, Nat.lt_succ_of_lt hk⟩).setPc s.stack[k])) ∧
  (∀ s : State, s.sp.val = 0 →
    exec .ret s = .next ((s.setRun (.halted .stackUnderflow)).emit (.raised (.stackUnderflow (s.pc - 2)))))

/-- A whole step that overflows or underflows the stack: `run` is `Halted`, `pc` is the fetch address plus 2, the info is the
fetch address, and the rest is unchanged (R114, R115). -/
def Obligations.StackErrorStep : Prop :=
  (∀ (s : State) (nnn : Addr12), s.run = .running → decodeWord true (s.fetch16 s.pc) = .instr (.call nnn) → s.sp.val = 16 →
    step s = .next (((s.setPc (s.pc + 2)).setRun (.halted .stackOverflow)).emit (.raised (.stackOverflow s.pc)))) ∧
  (∀ s : State, s.run = .running → decodeWord true (s.fetch16 s.pc) = .instr .ret → s.sp.val = 0 →
    step s = .next (((s.setPc (s.pc + 2)).setRun (.halted .stackUnderflow)).emit (.raised (.stackUnderflow s.pc))))

/-- A call, then anything that leaves the stack as the call left it, then a return: `pc` is the address after the call and the
stack is as deep as before, its entries intact (R76, R78). -/
def Obligations.CallThenReturnResumesAfterTheCall : Prop :=
  ∀ (nnn : Addr12) (s : State), s.sp.val < 16 →
    ∃ t, exec (.call nnn) s = .next t ∧
      ∀ m : State, m.sp = t.sp → m.stack = t.stack →
        ∃ u, exec .ret m = .next u ∧ u.pc = s.pc ∧ u.sp = s.sp ∧
          ∀ k : Fin 16, k.val < s.sp.val → u.stack[k.val] = s.stack[k.val]

/-- The four register skips add 2 to `pc` exactly when their condition holds, and change nothing else (R79 to R82). -/
def Obligations.SkipsAddTwoToPc : Prop :=
  ∀ (x y : Reg) (nn : Byte) (s : State),
    exec (.seByte x nn) s = .next (if s.reg x = nn then s.setPc (s.pc + 2) else s) ∧
    exec (.sneByte x nn) s = .next (if s.reg x = nn then s else s.setPc (s.pc + 2)) ∧
    exec (.seReg x y) s = .next (if s.reg x = s.reg y then s.setPc (s.pc + 2) else s) ∧
    exec (.sneReg x y) s = .next (if s.reg x = s.reg y then s else s.setPc (s.pc + 2))

/-- EX9E and EXA1 skip on the key the register names (R105, R106), in every dialect that gives the value a key. Which key that
is (R104): with `LOW_NIBBLE` the low nibble, so in the default dialect both always complete (decision D13, log 13); with
`FAULT` the value itself from 0 to 15, and a value above 15 halts the core. -/
def Obligations.KeySkipsTestTheNamedKey : Prop :=
  (∀ (d : Dialect) (x : Reg) (s : State) (k : Key), keyIndexIn d.keyIndexMode (s.reg x) = some k →
    execIn d (.skp x) s = .next (if s.keyAt k then s.setPc (s.pc + 2) else s) ∧
    execIn d (.sknp x) s = .next (if s.keyAt k then s else s.setPc (s.pc + 2))) ∧
  (∀ (x : Reg) (s : State) (k : Key), k.val = (s.reg x).toNat % 16 →
    exec (.skp x) s = .next (if s.keyAt k then s.setPc (s.pc + 2) else s) ∧
    exec (.sknp x) s = .next (if s.keyAt k then s else s.setPc (s.pc + 2))) ∧
  (∀ (d : Dialect) (x : Reg) (s : State) (k : Key),
    (d.keyIndexMode = .lowNibble ∧ (s.reg x).toNat % 16 = k.val) ∨ (d.keyIndexMode = .fault ∧ (s.reg x).toNat = k.val) →
    execIn d (.skp x) s = .next (if s.keyAt k then s.setPc (s.pc + 2) else s) ∧
    execIn d (.sknp x) s = .next (if s.keyAt k then s else s.setPc (s.pc + 2))) ∧
  (∀ (d : Dialect) (x : Reg) (s : State), d.keyIndexMode = .fault → 15 < (s.reg x).toNat →
    execIn d (.skp x) s =
      .next ((s.setRun (.halted .keyRegisterOutOfRange)).emit (.raised (.keyRegisterOutOfRange (s.reg x)))) ∧
    execIn d (.sknp x) s =
      .next ((s.setRun (.halted .keyRegisterOutOfRange)).emit (.raised (.keyRegisterOutOfRange (s.reg x)))))

/-! ### Registers and arithmetic -/

/-- 6XNN, 7XNN, 8XY0 and ANNN: the destination alone changes, 7XNN to the sum modulo 256 with no flag (R84, R85, R86, R98). -/
def Obligations.LoadsAndAddImmediate : Prop :=
  ∀ (x y : Reg) (nn : Byte) (nnn : Addr12) (s : State),
    exec (.ldByte x nn) s = .next (s.setReg x nn) ∧
    exec (.addByte x nn) s = .next (s.setReg x (BitVec.ofNat 8 (((s.reg x).toNat + nn.toNat) % 256))) ∧
    exec (.ldReg x y) s = .next (s.setReg x (s.reg y)) ∧
    exec (.ldI nnn) s = .next (s.setI (BitVec.ofNat 16 nnn.toNat))

/-- 8XY1, 8XY2, 8XY3: the bitwise result in `V[X]`, then `VF <- 0` last exactly in a dialect with `LOGIC_RESETS_VF` (R87, R88,
R89). In the default dialect `VF` is left alone (decision D12, log 12). -/
def Obligations.LogicResults : Prop :=
  (∀ (d : Dialect) (x y : Reg) (s : State),
    let w := fun b => if d.logicResetsVF then (s.setReg x b).setReg flagReg 0 else s.setReg x b
    execIn d (.orReg x y) s = .next (w (s.reg x ||| s.reg y)) ∧
    execIn d (.andReg x y) s = .next (w (s.reg x &&& s.reg y)) ∧
    execIn d (.xorReg x y) s = .next (w (s.reg x ^^^ s.reg y))) ∧
  (∀ (x y : Reg) (s : State),
    exec (.orReg x y) s = .next (s.setReg x (s.reg x ||| s.reg y)) ∧
    exec (.andReg x y) s = .next (s.setReg x (s.reg x &&& s.reg y)) ∧
    exec (.xorReg x y) s = .next (s.setReg x (s.reg x ^^^ s.reg y)))

/-- 8XY4: the sum modulo 256 in `V[X]`, then the carry in the flag register (R90). -/
def Obligations.AddWithCarry : Prop :=
  ∀ (x y : Reg) (s : State),
    exec (.addReg x y) s =
      .next ((s.setReg x (BitVec.ofNat 8 (((s.reg x).toNat + (s.reg y).toNat) % 256))).setReg flagReg
        (if 255 < (s.reg x).toNat + (s.reg y).toNat then 1 else 0))

/-- 8XY5 and 8XY7: the difference modulo 256 in `V[X]`, then 1 in the flag register iff no borrow, minuend at least subtrahend
(R91, R93). -/
def Obligations.SubtractWithBorrow : Prop :=
  ∀ (x y : Reg) (s : State),
    exec (.subReg x y) s =
      .next ((s.setReg x (BitVec.ofNat 8 ((256 + (s.reg x).toNat - (s.reg y).toNat) % 256))).setReg flagReg
        (if (s.reg y).toNat ≤ (s.reg x).toNat then 1 else 0)) ∧
    exec (.subn x y) s =
      .next ((s.setReg x (BitVec.ofNat 8 ((256 + (s.reg y).toNat - (s.reg x).toNat) % 256))).setReg flagReg
        (if (s.reg x).toNat ≤ (s.reg y).toNat then 1 else 0))

/-- 8XY6 and 8XYE: the source halved or doubled modulo 256 in `V[X]`, then the bit shifted out in the flag register; the source
by `SHIFT_SOURCE` (R92, R94). In the default dialect it is `V[X]` (decision D9, log 9). -/
def Obligations.ShiftsByOne : Prop :=
  (∀ (d : Dialect) (x y : Reg) (s : State),
    let src := (match d.shiftSource with | .vx => s.reg x | .vy => s.reg y).toNat
    execIn d (.shr x y) s =
      .next ((s.setReg x (BitVec.ofNat 8 (src / 2))).setReg flagReg (BitVec.ofNat 8 (src % 2))) ∧
    execIn d (.shl x y) s =
      .next ((s.setReg x (BitVec.ofNat 8 (src * 2 % 256))).setReg flagReg (BitVec.ofNat 8 (src / 128)))) ∧
  (∀ (x y : Reg) (s : State),
    exec (.shr x y) s =
      .next ((s.setReg x (BitVec.ofNat 8 ((s.reg x).toNat / 2))).setReg flagReg (BitVec.ofNat 8 ((s.reg x).toNat % 2))) ∧
    exec (.shl x y) s =
      .next ((s.setReg x (BitVec.ofNat 8 ((s.reg x).toNat * 2 % 256))).setReg flagReg
        (BitVec.ofNat 8 ((s.reg x).toNat / 128))))

/-- The flag is written last: with the flag register as destination 8XY4 to 8XY7 and 8XYE leave it holding the flag, computed
from the operands as they stood before, for every `Y`; the shifts in every dialect, their source by `SHIFT_SOURCE` (R15). -/
def Obligations.FlagIsWrittenLast : Prop :=
  ∀ (y : Reg) (s : State),
    (∃ t, exec (.addReg flagReg y) s = .next t ∧
      t.reg flagReg = if 255 < (s.reg flagReg).toNat + (s.reg y).toNat then 1 else 0) ∧
    (∃ t, exec (.subReg flagReg y) s = .next t ∧
      t.reg flagReg = if (s.reg y).toNat ≤ (s.reg flagReg).toNat then 1 else 0) ∧
    (∃ t, exec (.subn flagReg y) s = .next t ∧
      t.reg flagReg = if (s.reg flagReg).toNat ≤ (s.reg y).toNat then 1 else 0) ∧
    (∀ (d : Dialect),
      let src := (match d.shiftSource with | .vx => s.reg flagReg | .vy => s.reg y).toNat
      ∃ t u, execIn d (.shr flagReg y) s = .next t ∧ execIn d (.shl flagReg y) s = .next u ∧
        t.reg flagReg = BitVec.ofNat 8 (src % 2) ∧ u.reg flagReg = BitVec.ofNat 8 (src / 128))

/-- CXNN: exactly one draw is taken, and `V[X]` holds it under the mask (R95). The byte drawn is a free value (log 16): the
statement holds for every one. -/
def Obligations.RandomByteIsMasked : Prop :=
  ∀ (x : Reg) (nn : Byte) (s : State), ∃ t, exec (.rnd x nn) s = .next t ∧
    t = (s.setDraws (s.draws + 1)).setReg x (Config.draw s.draws &&& nn) ∧
    ∀ k, nn.getLsbD k = false → (t.reg x).getLsbD k = false

/-! ### Index register and memory -/

/-- FX1E: `I` is the sum modulo 0x10000, and only in a dialect with `ADD_I_SETS_VF` is the flag written, 1 iff the sum exceeds
0x0FFF (R99; the 16-bit sum is decision D3, the default D10, the threshold general knowledge G11). FX29: `I` is 5 times the
low nibble (R100; decisions D5, D6). -/
def Obligations.IndexArithmetic : Prop :=
  (∀ (d : Dialect) (x : Reg) (s : State),
    let sum := s.i.toNat + (s.reg x).toNat
    execIn d (.addIVx x) s =
      .next (if d.addISetsVF then (s.setI (BitVec.ofNat 16 (sum % 0x10000))).setReg flagReg (if 0x0FFF < sum then 1 else 0)
        else s.setI (BitVec.ofNat 16 (sum % 0x10000)))) ∧
  (∀ (x : Reg) (s : State),
    exec (.addIVx x) s = .next (s.setI (BitVec.ofNat 16 ((s.i.toNat + (s.reg x).toNat) % 0x10000))) ∧
    exec (.ldFVx x) s = .next (s.setI (BitVec.ofNat 16 (5 * ((s.reg x).toNat % 16)))))

/-- FX33 and FX55 where no write stops them, that is in every dialect but `FAULT`, and under `FAULT` where no byte of the
window is reserved: the bytes land at `I` on, each address reduced modulo 4096, but where the address is below 0x200 and the
dialect drops the write; `I` moves only where the dialect says so, and nothing else changes (R40, R101, R102; decisions D7 and
D11, logs 8 and 11). -/
def Obligations.StoresPutBytesAtI : Prop :=
  ∀ (d : Dialect) (x : Reg) (s : State),
    (d.reservedWrite ≠ .fault ∨ (∀ k : Nat, k < 3 → 0x200 ≤ (s.i.toNat + k) % 4096) →
      ∃ t, execIn d (.ldBVx x) s = .next t ∧ Frame [] [] (window s.i 3) s t ∧
        ∀ k : Nat, k < 3 → t.readByte (s.i + BitVec.ofNat 16 k) =
          if 0x200 ≤ (s.i.toNat + k) % 4096 ∨ d.reservedWrite = .allow then
            BitVec.ofNat 8 ([(s.reg x).toNat / 100, (s.reg x).toNat / 10 % 10, (s.reg x).toNat % 10].getD k 0)
          else s.readByte (s.i + BitVec.ofNat 16 k)) ∧
    (d.reservedWrite ≠ .fault ∨ (∀ r : Reg, r ≤ x → 0x200 ≤ (s.i.toNat + r.val) % 4096) →
      ∃ t, execIn d (.ldMemVx x) s = .next t ∧ Frame [] [.i] (window s.i (x.val + 1)) s t ∧
        t.i = (if d.memOpsIncrementI then BitVec.ofNat 16 (s.i.toNat + x.val + 1) else s.i) ∧
        ∀ r : Reg, r ≤ x → t.readByte (s.i + BitVec.ofNat 16 r.val) =
          if 0x200 ≤ (s.i.toNat + r.val) % 4096 ∨ d.reservedWrite = .allow then s.reg r
          else s.readByte (s.i + BitVec.ofNat 16 r.val))

/-- FX33 and FX55 in the default dialect, on every state: they complete, a write below 0x200 is dropped without report, `I`
is unchanged (decisions D7 and D11). -/
def Obligations.DefaultStoresDropReservedWrites : Prop :=
  ∀ (x : Reg) (s : State),
    (∃ t, exec (.ldBVx x) s = .next t ∧ Frame [] [] (window s.i 3) s t ∧
      ∀ k : Nat, k < 3 → t.readByte (s.i + BitVec.ofNat 16 k) =
        if 0x200 ≤ (s.i.toNat + k) % 4096 then
          BitVec.ofNat 8 ([(s.reg x).toNat / 100, (s.reg x).toNat / 10 % 10, (s.reg x).toNat % 10].getD k 0)
        else s.readByte (s.i + BitVec.ofNat 16 k)) ∧
    (∃ t, exec (.ldMemVx x) s = .next t ∧ Frame [] [] (window s.i (x.val + 1)) s t ∧
      ∀ r : Reg, r ≤ x → t.readByte (s.i + BitVec.ofNat 16 r.val) =
        if 0x200 ≤ (s.i.toNat + r.val) % 4096 then s.reg r else s.readByte (s.i + BitVec.ofNat 16 r.val))

/-- Under `RESERVED_WRITE` = `FAULT`, FX33 and FX55 stop at the first reserved address in write order: the digits or registers
before it are written, those from it on are not, `I` does not move, and the core halts with `ReservedWrite` of that address
(R40, R72, R101, R102, R118; decision D7, log 8). -/
def Obligations.ReservedFaultStopsTheStore : Prop :=
  (∀ (d : Dialect) (x : Reg) (j : Nat) (s : State), d.reservedWrite = .fault → j < 3 →
    (s.i.toNat + j) % 4096 < 0x200 → (∀ k : Nat, k < j → 0x200 ≤ (s.i.toNat + k) % 4096) →
    ∃ t, execIn d (.ldBVx x) s = .next t ∧ Frame [] [.run, .trace] (window s.i j) s t ∧
      t.run = .halted .reservedWrite ∧
      t.trace = .raised (.reservedWrite (BitVec.ofNat 16 ((s.i.toNat + j) % 4096))) :: s.trace ∧
      ∀ k : Nat, k < j → t.readByte (s.i + BitVec.ofNat 16 k) =
        BitVec.ofNat 8 ([(s.reg x).toNat / 100, (s.reg x).toNat / 10 % 10, (s.reg x).toNat % 10].getD k 0)) ∧
  (∀ (d : Dialect) (x j : Reg) (s : State), d.reservedWrite = .fault → j ≤ x →
    (s.i.toNat + j.val) % 4096 < 0x200 → (∀ r : Reg, r < j → 0x200 ≤ (s.i.toNat + r.val) % 4096) →
    ∃ t, execIn d (.ldMemVx x) s = .next t ∧ Frame [] [.run, .trace] (window s.i j.val) s t ∧
      t.run = .halted .reservedWrite ∧
      t.trace = .raised (.reservedWrite (BitVec.ofNat 16 ((s.i.toNat + j.val) % 4096))) :: s.trace ∧
      ∀ r : Reg, r < j → t.readByte (s.i + BitVec.ofNat 16 r.val) = s.reg r)

/-- FX65: `V[0]` to `V[X]` from `I` on, addresses reduced modulo 4096, the other registers as before; `I` moves only where the
dialect says so (R103). In the default dialect `I` is unchanged (decision D11, log 11). -/
def Obligations.LoadReadsBytesAtI : Prop :=
  (∀ (d : Dialect) (x : Reg) (s : State), ∃ t, execIn d (.ldVxMem x) s = .next t ∧ Frame (regsTo x) [.i] [] s t ∧
    t.i = (if d.memOpsIncrementI then BitVec.ofNat 16 (s.i.toNat + x.val + 1) else s.i) ∧
    ∀ r : Reg, r ≤ x → t.reg r = s.mem.read ((s.i.toNat + r.val) % 4096)) ∧
  (∀ (x : Reg) (s : State), ∃ t, exec (.ldVxMem x) s = .next t ∧ Frame (regsTo x) [] [] s t ∧
    ∀ r : Reg, r ≤ x → t.reg r = s.mem.read ((s.i.toNat + r.val) % 4096))

/-- A store of registers, then a load of as many from the same `I`, whatever the registers held in between, gives the stored
registers back when no byte of the window is reserved (R102, R103). The load runs at the `I` that FX55 left, which is the same
one by decision D11 (log 11). -/
def Obligations.StoreThenLoadRestoresRegisters : Prop :=
  ∀ (x : Reg) (s : State), (∀ k : Nat, k ≤ x.val → 0x200 ≤ (s.i.toNat + k) % 4096) →
    ∃ t, exec (.ldMemVx x) s = .next t ∧
      ∀ v : Vector Byte 16, ∃ u, exec (.ldVxMem x) { t with v := v } = .next u ∧ ∀ r : Reg, r ≤ x → u.reg r = s.reg r

/-- The decimal digits of FX33, loaded by FX65 with X = 2, are digits and make the value again (R101, R103). The load runs at
the `I` that FX33 left, which is the same one by decision D11 (log 11). -/
def Obligations.DecimalDigitsMakeTheValue : Prop :=
  ∀ (x : Reg) (s : State), (∀ k : Nat, k < 3 → 0x200 ≤ (s.i.toNat + k) % 4096) →
    ∃ t u, exec (.ldBVx x) s = .next t ∧ exec (.ldVxMem 2) t = .next u ∧
      100 * (u.reg 0).toNat + 10 * (u.reg 1).toNat + (u.reg 2).toNat = (s.reg x).toNat ∧
      (u.reg 0).toNat ≤ 2 ∧ (u.reg 1).toNat ≤ 9 ∧ (u.reg 2).toNat ≤ 9

/-- Self-modifying code takes effect at once: two bytes that FX55 stores where `pc` points are the word the next step fetches
(R47). -/
def Obligations.StoredWordIsFetchedNext : Prop :=
  ∀ (x : Reg) (s : State), 1 ≤ x.val → s.i.toNat % 4096 = s.pc.toNat % 4096 →
    0x200 ≤ s.pc.toNat % 4096 → s.pc.toNat % 4096 < 4095 →
    ∃ t, exec (.ldMemVx x) s = .next t ∧ t.pc = s.pc ∧
      (t.fetch16 t.pc).toNat = 256 * (s.reg 0).toNat + (s.reg 1).toNat

/-! ### Keys and timers -/

/-- FX0A suspends with its register named and changes nothing else; FX07, FX15 and FX18 move between a register and a timer
(R107 to R110). -/
def Obligations.KeyWaitAndTimerMoves : Prop :=
  ∀ (x : Reg) (s : State),
    exec (.ldVxK x) s = .next (s.setRun (.awaitingKey x)) ∧
    exec (.ldVxDT x) s = .next (s.setReg x s.dt) ∧
    exec (.ldDTVx x) s = .next (s.setDt (s.reg x)) ∧
    exec (.ldSTVx x) s = .next (s.setSt (s.reg x))

/-! ### Display -/

/-- 00E0 sets every pixel false and changes nothing else (R73). -/
def Obligations.ClearTurnsEveryPixelOff : Prop :=
  ∀ s : State, ∃ t, exec .cls s = .next t ∧ t = s.setFb t.fb ∧ ∀ (px : Fin 64) (py : Fin 32), pixel t.fb px py = false

/-- DXYN toggles exactly the pixels that a 1 bit of the sprite lands on, wrapped at both edges, and sets the flag register to
1 iff one of them was on (R74, R75). The 64 x 32 grid is decision D1, the bit order general knowledge G8, DXY0 decision D20.
-/
def Obligations.DrawTogglesTheSpritePixels : Prop :=
  ∀ (x y : Reg) (n : Nibble) (s : State),
    let lands := fun (px : Fin 64) (py : Fin 32) => ∃ r c : Nat, r < n.toNat ∧ c < 8 ∧
      (s.mem.read ((s.i.toNat + r) % 4096)).getLsbD (7 - c) = true ∧
      px.val = ((s.reg x).toNat % 64 + c) % 64 ∧ py.val = ((s.reg y).toNat % 32 + r) % 32
    ∃ t, exec (.drw x y n) s = .next t ∧ t = (s.setFb t.fb).setReg flagReg (t.reg flagReg) ∧
      (∀ px py, pixel t.fb px py ≠ pixel s.fb px py ↔ lands px py) ∧
      ((∃ px py, lands px py ∧ pixel s.fb px py = true) → t.reg flagReg = 1) ∧
      ((¬ ∃ px py, lands px py ∧ pixel s.fb px py = true) → t.reg flagReg = 0)

/-- Drawing the same sprite twice at the same place restores the framebuffer, and the second draw's flag is 1 exactly when the
first draw turned a pixel on; where every pixel the sprite lands on was off, that is exactly when the sprite has a set bit
(R75; without that premise the rule's own sentence is refuted by its pseudocode, log 31). Neither coordinate register may be
the flag register, which the first draw overwrites. Which pixels it lands on rests on decision D1 and general knowledge G8
(logs 3 and 20). -/
def Obligations.DrawTwiceRestoresTheFramebuffer : Prop :=
  ∀ (x y : Reg) (n : Nibble) (s : State), x ≠ flagReg → y ≠ flagReg →
    let lands := fun (px : Fin 64) (py : Fin 32) => ∃ r c : Nat, r < n.toNat ∧ c < 8 ∧
      (s.mem.read ((s.i.toNat + r) % 4096)).getLsbD (7 - c) = true ∧
      px.val = ((s.reg x).toNat % 64 + c) % 64 ∧ py.val = ((s.reg y).toNat % 32 + r) % 32
    ∃ t u, exec (.drw x y n) s = .next t ∧ exec (.drw x y n) t = .next u ∧ u.fb = s.fb ∧
      (u.reg flagReg = 1 ∨ u.reg flagReg = 0) ∧
      (u.reg flagReg = 1 ↔ ∃ px py, lands px py ∧ pixel s.fb px py = false) ∧
      ((∀ px py, lands px py → pixel s.fb px py = false) →
        (u.reg flagReg = 1 ↔ ∃ r c : Nat, r < n.toNat ∧ c < 8 ∧
          (s.mem.read ((s.i.toNat + r) % 4096)).getLsbD (7 - c) = true))

/-! ### The host surface -/

/-- A tick, in every run state: each nonzero timer falls by 1, and exactly a 1-to-0 transition of `ST` beeps, once (R121; that
it runs while halted is decision D23). -/
def Obligations.TickCountsDownAndBeeps : Prop :=
  ∀ s : State, ∃ t, perform .tickTimers s = .next t ∧ Frame [] [.dt, .st, .trace] [] s t ∧
    t.dt.toNat = s.dt.toNat - 1 ∧ t.st.toNat = s.st.toNat - 1 ∧
    t.trace = (if s.st = 1 then .beep :: s.trace else s.trace)

/-- After `n` ticks each timer has lost `n`, clamped at 0, and the sound timer has beeped once if it ran out on the way and
never otherwise (R25, R120, R121). -/
def Obligations.TicksClampAndBeepOnce : Prop :=
  ∀ (n : Nat) (s : State),
    (tickTimers^[n] s).dt.toNat = s.dt.toNat - n ∧ (tickTimers^[n] s).st.toNat = s.st.toNat - n ∧
    (tickTimers^[n] s).trace = if 0 < s.st.toNat ∧ s.st.toNat ≤ n then .beep :: s.trace else s.trace

/-- `setKey`: an index outside 0 to 15 is reported and changes no other state (R117); otherwise the latch entry is written
(R122), and nothing else changes unless it is a new key-down while the core waits. Then the waiting register gets the key
number and the core runs (R123; decision D24, log 22). -/
def Obligations.SetKeyWritesTheLatch : Prop :=
  (∀ (index : Int) (pressed : Bool) (s : State), index < 0 ∨ 15 < index →
    perform (.setKey index pressed) s = .next (s.emit (.raised (.inputIndexOutOfRange index)))) ∧
  (∀ (k : Key) (pressed : Bool) (s : State), pressed = false ∨ s.keyAt k = true ∨ (∀ x, s.run ≠ .awaitingKey x) →
    perform (.setKey k.val pressed) s = .next (s.setKeyAt k pressed)) ∧
  (∀ (k : Key) (x : Reg) (s : State), s.run = .awaitingKey x → s.keyAt k = false →
    perform (.setKey k.val true) s = .next (((s.setKeyAt k true).setReg x (BitVec.ofNat 8 k.val)).setRun .running))

/-- A key wait stalls only the engine: under any steps, ticks and framebuffer reads the core stays waiting with every other
piece unchanged, while the timers lose one per tick (R128, R141). -/
def Obligations.KeyWaitDoesNotStallTimers : Prop :=
  ∀ (cs : List HostCall) (x : Reg) (s : State), s.run = .awaitingKey x →
    (∀ c ∈ cs, c = .step ∨ c = .tickTimers ∨ c = .getFramebuffer) →
    ∃ t, runCalls cs s = .next t ∧ Frame [] [.dt, .st, .trace] [] s t ∧
      t.dt.toNat = s.dt.toNat - cs.count .tickTimers ∧ t.st.toNat = s.st.toNat - cs.count .tickTimers

/-- Under a schedule that ticks again and again (the fairness premise of R125), with no key and no reset, a waiting core's
timers both reach 0, and it still waits. -/
def Obligations.FairTicksRunTheTimersOut : Prop :=
  ∀ (schedule : Nat → HostCall) (σ : Nat → State), TicksForever schedule →
    (∀ n, perform (schedule n) (σ n) = .next (σ (n + 1))) →
    (∀ n, schedule n ≠ .reset ∧ ∀ k p, schedule n ≠ .setKey k p) → WaitingForKey (σ 0) →
    ∃ n, (σ n).dt = 0 ∧ (σ n).st = 0 ∧ (σ n).run = (σ 0).run

/-- `loadProgram`: a program over 3584 bytes, or a font that is not 80 bytes, is a `LoadError` and nothing is written (R116);
otherwise byte `j` of the image lands at 0x200 + `j` (R133) and the font, if any, at 0 to 79 (R132; decision D27, log 23), and
nothing else changes (R131; repeated loads are decision D26). -/
def Obligations.LoadPlacesTheProgram : Prop :=
  (∀ (bytes : List Byte) (font : Option (List Byte)) (s : State), 3584 < bytes.length →
    perform (.loadProgram bytes font) s = .next (s.emit (.raised (.loadError bytes.length)))) ∧
  (∀ (bytes font : List Byte) (s : State), bytes.length ≤ 3584 → font.length ≠ 80 →
    perform (.loadProgram bytes (some font)) s = .next (s.emit (.raised (.loadError font.length)))) ∧
  (∀ (bytes : List Byte) (font : Option (List Byte)) (s : State), bytes.length ≤ 3584 → (∀ f, font = some f → f.length = 80) →
    ∃ t, perform (.loadProgram bytes font) s = .next t ∧ t = s.setMem t.mem ∧
      (∀ j (hj : j < bytes.length), t.mem.read (0x200 + j) = bytes[j]) ∧
      (∀ f, font = some f → ∀ j, j < 80 → t.mem.read j = f.getD j 0) ∧
      (∀ a, (a < 0x200 ∨ 0x200 + bytes.length ≤ a) → (font = none ∨ 80 ≤ a) → t.mem.read a = s.mem.read a))

/-- The reset state (R34, R129): registers, `I`, timers, depth and latch zero, `pc` = 0x200, memory zero but for the font; the
clear screen and `Running` are decisions D16 and D17, the font bytes general knowledge G3. `reset()` gives it from every state
(decision D16), the environment's two counters going on (logs 16 and 17). -/
def Obligations.ResetGivesTheResetState : Prop :=
  (∀ r, State.reset.reg r = 0) ∧ State.reset.i = 0 ∧ State.reset.pc = 0x200 ∧ State.reset.sp = 0 ∧
  State.reset.dt = 0 ∧ State.reset.st = 0 ∧ (∀ k, State.reset.keyAt k = false) ∧
  (∀ px py, pixel State.reset.fb px py = false) ∧ State.reset.run = .running ∧
  (∀ j, j < 80 → State.reset.mem.read j = fontData.getD j 0) ∧ (∀ a, 80 ≤ a → State.reset.mem.read a = 0) ∧
  (∀ s : State, perform .reset s = .next { State.reset with draws := s.draws, trace := s.trace })

/-! ### The whole machine -/

/-- Every step keeps the invariant, from every state, in the default and in every dialect: memory keeps its canonical form, a
halt holds only an error that can halt, and has been reported (R31, R70, R71, R112). -/
def Obligations.StepKeepsTheInvariant : Prop :=
  (∀ s t : State, Inv s → step s = .next t → Inv t) ∧
  (∀ (d : Dialect) (s t : State), Inv s → stepIn d s = .next t → Inv t)

/-- The reset state has the invariant. -/
def Obligations.ResetHasTheInvariant : Prop := Inv State.reset

/-- Every one of the six host operations, in any dialect and from every state, keeps the invariant (R111, R112, R125, R129,
R131); so every state the core can reach by any interleaving of them has it. -/
def Obligations.EveryCallKeepsTheInvariant : Prop :=
  (∀ (d : Dialect) (c : HostCall) (s t : State), Inv s → performIn d c s = .next t → Inv t) ∧
  (∀ (d : Dialect) (s : State), ReachableIn d s → Inv s)

/-- In the default dialect every host operation, from every state, keeps the bytes between the font and 0x200 zero; so they are
zero in every reachable state, whatever programs are loaded and run (R39, R40, R50; that the writes are dropped is decision D7,
log 8). -/
def Obligations.ReservedBytesStayZero : Prop :=
  (∀ (c : HostCall) (s t : State), ReservedIsZero s → performIn dialect c s = .next t → ReservedIsZero t) ∧
  (∀ s : State, ReachableIn dialect s → ReservedIsZero s)

/-- Which instructions can change which piece of state, in every dialect: the framebuffer only 00E0 and DXYN (R29), memory only
FX33 and FX55 (R50), the stack and its depth only CALL and RET (R22), the latch none (R27), each timer only its own
instruction (R23, R24), `I` only those that R16 lists. -/
def Obligations.WritersOfEachPiece : Prop :=
  ∀ (d : Dialect) (i : Instr) (s t : State), execIn d i s = .next t →
    (t.fb ≠ s.fb → i = .cls ∨ ∃ x y n, i = .drw x y n) ∧
    (t.mem ≠ s.mem → ∃ x, i = .ldBVx x ∨ i = .ldMemVx x) ∧
    (t.sp ≠ s.sp ∨ t.stack ≠ s.stack → i = .ret ∨ ∃ nnn, i = .call nnn) ∧
    t.key = s.key ∧
    (t.dt ≠ s.dt → ∃ x, i = .ldDTVx x) ∧
    (t.st ≠ s.st → ∃ x, i = .ldSTVx x) ∧
    (t.i ≠ s.i → (∃ nnn, i = .ldI nnn) ∨ (∃ x, i = .addIVx x ∨ i = .ldFVx x) ∨
      (d.memOpsIncrementI = true ∧ ∃ x, i = .ldMemVx x ∨ i = .ldVxMem x))

/-- No instruction reads the sound timer: two states that differ in it alone step to states that differ in it at most (R24). A
claim on two runs, which takes the byte that CXNN draws to be the same in both (log 16): the states have drawn equally often.
-/
def Obligations.NoInstructionReadsTheSoundTimer : Prop :=
  ∀ (d : Dialect) (s t u : State) (b : Byte), stepIn d s = .next t → stepIn d (s.setSt b) = .next u → AgreeButSt t u

/-- Stack entries at the depth and above cannot be observed: two states that differ in them alone step to states that differ
in them at most (R21, R22; decision D8, log 18). A claim on two runs, which takes the byte that CXNN draws to be the same in
both (log 16): the states have drawn equally often. -/
def Obligations.DeadStackEntriesAreUnobservable : Prop :=
  ∀ (d : Dialect) (s s' t : State), AgreeOnLiveStack s s' → stepIn d s = .next t →
    ∃ t', stepIn d s' = .next t' ∧ AgreeOnLiveStack t t'

/-- A jump to its own address leaves the state unchanged: the idiom for done (R77, R144). -/
def Obligations.SelfJumpIsDone : Prop :=
  ∀ (s : State) (nnn : Addr12), s.run = .running → decodeWord true (s.fetch16 s.pc) = .instr (.jp nnn) →
    s.pc.toNat = nnn.toNat → Done s

/-! ### Frames -/

/-- 6XNN, 7XNN, 8XYn, FX07 and CXNN change the destination register, the flag register where the rule names it, the count of
draws for CXNN, and nothing else; no byte of memory (R84 to R95, R108; that the logic instructions leave the flag register is
decision D12). -/
def Obligations.RegisterWritersFrame : Prop :=
  ∀ (x y : Reg) (nn : Byte) (s t : State),
    (∀ i ∈ [Instr.ldByte x nn, .addByte x nn, .ldReg x y, .orReg x y, .andReg x y, .xorReg x y, .ldVxDT x],
      exec i s = .next t → Frame [x] [] [] s t) ∧
    (∀ i ∈ [Instr.addReg x y, .subReg x y, .subn x y, .shr x y, .shl x y],
      exec i s = .next t → Frame [x, flagReg] [] [] s t) ∧
    (exec (.rnd x nn) s = .next t → Frame [x] [.draws] [] s t)

/-- Jumps and skips change `pc` alone; CALL and RET change `pc`, the depth and (CALL) the stack, or halt and report (R76 to R83,
R105, R106; the key skips never stop in the default dialect, decision D13). -/
def Obligations.ControlTransferFrame : Prop :=
  ∀ (x y : Reg) (nn : Byte) (nnn : Addr12) (s t : State),
    (∀ i ∈ [Instr.jp nnn, .jpV0 nnn, .seByte x nn, .sneByte x nn, .seReg x y, .sneReg x y, .skp x, .sknp x],
      exec i s = .next t → Frame [] [.pc] [] s t) ∧
    (exec (.call nnn) s = .next t → Frame [] [.pc, .sp, .stack] [] s t ∨ Frame [] [.run, .trace] [] s t) ∧
    (exec .ret s = .next t → Frame [] [.pc, .sp] [] s t ∨ Frame [] [.run, .trace] [] s t)

/-- FX33 and FX55 change the bytes of their window alone, addressed as the meaning addresses them, from `I` on, and FX65 the
registers up to X alone (R101 to R103; that `I` stays is decision D11). -/
def Obligations.MemoryInstructionsFrame : Prop :=
  ∀ (x : Reg) (s t : State),
    (exec (.ldBVx x) s = .next t → Frame [] [] ((List.range 3).map fun k => effective (s.i + BitVec.ofNat 16 k)) s t) ∧
    (exec (.ldMemVx x) s = .next t →
      Frame [] [] ((List.range (x.val + 1)).map fun k => effective (s.i + BitVec.ofNat 16 k)) s t) ∧
    (exec (.ldVxMem x) s = .next t → Frame (regsTo x) [] [] s t)

/-- ANNN, FX1E and FX29 change `I` alone, FX15 and FX18 their timer alone, FX0A the run state alone (R98 to R100, R107, R109,
R110; that FX1E leaves the flag register is decision D10). -/
def Obligations.SpecialWritersFrame : Prop :=
  ∀ (x : Reg) (nnn : Addr12) (s t : State),
    (∀ i ∈ [Instr.ldI nnn, .addIVx x, .ldFVx x], exec i s = .next t → Frame [] [.i] [] s t) ∧
    (exec (.ldDTVx x) s = .next t → Frame [] [.dt] [] s t) ∧
    (exec (.ldSTVx x) s = .next t → Frame [] [.st] [] s t) ∧
    (exec (.ldVxK x) s = .next t → Frame [] [.run] [] s t)

/-- 00E0 changes the framebuffer alone, DXYN the framebuffer and the flag register (R73, R75). -/
def Obligations.DisplayFrame : Prop :=
  ∀ (x y : Reg) (n : Nibble) (s t : State),
    (exec .cls s = .next t → Frame [] [.fb] [] s t) ∧
    (exec (.drw x y n) s = .next t → Frame [flagReg] [.fb] [] s t)

/-! ### What a step returns -/

/-- What `step()` returns to its caller in `Running`, in every dialect (R68, R70, R71): the error that it reported, or
`AwaitingKey` for an FX0A, or `Ok`; `stepResult` is that of the default dialect. The step takes the one instruction fetched. -/
def Obligations.StepReturnsItsResult : Prop :=
  (∀ s : State, stepResult s = stepResultIn dialect s) ∧
  (∀ (d : Dialect) (s : State) (why : Invalid), s.run = .running → decodeWord d.strict59 (s.fetch16 s.pc) = .invalid why →
    stepResultIn d s = some (.error (.invalidInstruction (s.fetch16 s.pc) s.pc))) ∧
  (∀ (d : Dialect) (s : State) (i : Instr), s.run = .running → decodeWord d.strict59 (s.fetch16 s.pc) = .instr i →
    ∃ t, execIn d i (s.setPc (s.pc + 2)) = .next t ∧ stepIn d s = .next t ∧
      ((∃ e, t.trace = .raised e :: s.trace ∧ stepResultIn d s = some (.error e)) ∨
       (t.trace = s.trace ∧ (∃ x, i = .ldVxK x) ∧ stepResultIn d s = some .awaitingKey) ∨
       (t.trace = s.trace ∧ (∀ x, i ≠ .ldVxK x) ∧ stepResultIn d s = some .ok)))
end

