-- ==== Sys2Proof/Laws/Decode.lean ====
section
/-! SUPPORT. The fields of an encoded word are the fields it was made of, so that a proof about decoding never looks at bits. -/

namespace Sys2Proof

/-! ### Slices of joined bit strings, at any widths -/

theorem slice_append_low {m n : Nat} (a : BitVec m) (b : BitVec n) : (a ++ b).extractLsb' 0 n = b := by
  ext k hk
  simp [BitVec.getLsbD_append, hk]

theorem slice_append_high {m n : Nat} (a : BitVec m) (b : BitVec n) : (a ++ b).extractLsb' n m = a := by
  ext k hk
  simp [BitVec.getLsbD_append, BitVec.getLsbD_eq_getElem hk]

theorem slice_append_left {m n k l : Nat} (a : BitVec m) (b : BitVec n) (hl : n ≤ l) :
    (a ++ b).extractLsb' l k = a.extractLsb' (l - n) k := by
  ext j hj
  simp only [BitVec.getElem_extractLsb', BitVec.getLsbD_append]
  rw [if_neg (by omega), show l + j - n = l - n + j by omega]

/-! ### The formats of R52 -/

@[simp] theorem fieldClass_encFA (c : Nibble) (nnn : Addr12) : fieldClass (encFA c nnn) = c :=
  slice_append_high c nnn

@[simp] theorem fieldNNN_encFA (c : Nibble) (nnn : Addr12) : fieldNNN (encFA c nnn) = nnn :=
  slice_append_low c nnn

@[simp] theorem fieldClass_encFI (c : Nibble) (x : Reg) (nn : Byte) : fieldClass (encFI c x nn) = c :=
  (slice_append_left (l := 12) (k := 4) (c ++ regBits x) nn (by decide)).trans (slice_append_high c (regBits x))

@[simp] theorem fieldX_encFI (c : Nibble) (x : Reg) (nn : Byte) : fieldX (encFI c x nn) = x :=
  congrArg BitVec.toFin ((slice_append_left (l := 8) (k := 4) (c ++ regBits x) nn (by decide)).trans
    (slice_append_low c (regBits x)))

@[simp] theorem fieldNN_encFI (c : Nibble) (x : Reg) (nn : Byte) : fieldNN (encFI c x nn) = nn :=
  slice_append_low (c ++ regBits x) nn

@[simp] theorem fieldClass_encFR (c : Nibble) (x y : Reg) (n : Nibble) : fieldClass (encFR c x y n) = c :=
  (slice_append_left (l := 12) (k := 4) (c ++ regBits x ++ regBits y) n (by decide)).trans
    ((slice_append_left (l := 8) (k := 4) (c ++ regBits x) (regBits y) (by decide)).trans
      (slice_append_high c (regBits x)))

@[simp] theorem fieldX_encFR (c : Nibble) (x y : Reg) (n : Nibble) : fieldX (encFR c x y n) = x :=
  congrArg BitVec.toFin ((slice_append_left (l := 8) (k := 4) (c ++ regBits x ++ regBits y) n (by decide)).trans
    ((slice_append_left (l := 4) (k := 4) (c ++ regBits x) (regBits y) (by decide)).trans
      (slice_append_low c (regBits x))))

@[simp] theorem fieldY_encFR (c : Nibble) (x y : Reg) (n : Nibble) : fieldY (encFR c x y n) = y :=
  congrArg BitVec.toFin ((slice_append_left (l := 4) (k := 4) (c ++ regBits x ++ regBits y) n (by decide)).trans
    (slice_append_low (c ++ regBits x) (regBits y)))

@[simp] theorem fieldN_encFR (c : Nibble) (x y : Reg) (n : Nibble) : fieldN (encFR c x y n) = n :=
  slice_append_low (c ++ regBits x ++ regBits y) n

/-- The two bytes of a word joined again are the word (R38). -/
@[simp] theorem joinBytes_wordBytes (w : Word) : joinBytes (w.extractLsb' 8 8) (w.extractLsb' 0 8) = w := by
  apply BitVec.eq_of_getLsbD_eq
  intro k hk
  refine (BitVec.getLsbD_append (x := w.extractLsb' 8 8) (y := w.extractLsb' 0 8)).trans ?_
  rw [BitVec.getLsbD_extractLsb', BitVec.getLsbD_extractLsb']
  by_cases h : k < 8
  · simp [h]
  · simp [h, show k - 8 < 8 by omega, show 8 + (k - 8) = k by omega]

/-! ### A word is its fields -/

/-- Two adjoining slices of a bit string joined are the slice over both. -/
theorem slices_append {k : Nat} (w : BitVec k) (l m n : Nat) :
    w.extractLsb' (l + n) m ++ w.extractLsb' l n = w.extractLsb' l (m + n) := by
  apply BitVec.eq_of_getLsbD_eq
  intro j hj
  rw [BitVec.getLsbD_append, BitVec.getLsbD_extractLsb', BitVec.getLsbD_extractLsb', BitVec.getLsbD_extractLsb']
  by_cases h : j < n
  · simp [h, hj]
  · simp [h, hj, show j - n < m by omega, show l + n + (j - n) = l + j by omega]

theorem slice_whole {k : Nat} (w : BitVec k) : w.extractLsb' 0 k = w := by
  apply BitVec.eq_of_getLsbD_eq
  intro j hj
  simp [hj]

@[simp] theorem regBits_toFin (b : Nibble) : regBits b.toFin = b := rfl

theorem encFA_fields (w : Word) : encFA (fieldClass w) (fieldNNN w) = w :=
  (slices_append w 0 4 12).trans (slice_whole w)

theorem encFI_fields (w : Word) : encFI (fieldClass w) (fieldX w) (fieldNN w) = w := by
  have h : w.extractLsb' 12 4 ++ w.extractLsb' 8 4 ++ w.extractLsb' 0 8 = w := by
    rw [slices_append w 8 4 4, slices_append w 0 8 8, slice_whole]
  exact h

theorem encFR_fields (w : Word) : encFR (fieldClass w) (fieldX w) (fieldY w) (fieldN w) = w := by
  have h : w.extractLsb' 12 4 ++ w.extractLsb' 8 4 ++ w.extractLsb' 4 4 ++ w.extractLsb' 0 4 = w := by
    rw [slices_append w 8 4 4, slices_append w 4 8 4, slices_append w 0 12 4, slice_whole]
  exact h

theorem nibble_cases (c : Nibble) : c = 0x0 ∨ c = 0x1 ∨ c = 0x2 ∨ c = 0x3 ∨ c = 0x4 ∨ c = 0x5 ∨ c = 0x6 ∨ c = 0x7 ∨
    c = 0x8 ∨ c = 0x9 ∨ c = 0xA ∨ c = 0xB ∨ c = 0xC ∨ c = 0xD ∨ c = 0xE ∨ c = 0xF := by
  revert c
  decide

/-- Every word is in one of the formats of R52, by its class: a property of the words of each format holds of every word. -/
theorem word_formats {P : Word → Prop} (fa : ∀ c nnn, c ∈ [0x0#4, 0x1, 0x2, 0xA, 0xB] → P (encFA c nnn))
    (fi : ∀ c x nn, c ∈ [0x3#4, 0x4, 0x6, 0x7, 0xC, 0xE, 0xF] → P (encFI c x nn))
    (fr : ∀ c x y n, c ∈ [0x5#4, 0x8, 0x9, 0xD] → P (encFR c x y n)) (w : Word) : P w := by
  have ha := fa (fieldClass w) (fieldNNN w)
  have hi := fi (fieldClass w) (fieldX w) (fieldNN w)
  have hr := fr (fieldClass w) (fieldX w) (fieldY w) (fieldN w)
  rw [encFA_fields] at ha
  rw [encFI_fields] at hi
  rw [encFR_fields] at hr
  rcases nibble_cases (fieldClass w) with
    hc | hc | hc | hc | hc | hc | hc | hc | hc | hc | hc | hc | hc | hc | hc | hc <;>
    simp only [hc] at ha hi hr
  all_goals first
    | exact ha (by decide)
    | exact hi (by decide)
    | exact hr (by decide)

/-! ### The words as numbers -/

theorem toNat_joined {m n : Nat} (a : BitVec m) (b : BitVec n) : (a ++ b).toNat = a.toNat * 2 ^ n + b.toNat := by
  rw [BitVec.toNat_append, ← Nat.shiftLeft_add_eq_or_of_lt b.isLt, Nat.shiftLeft_eq]

theorem toNat_joinBytes (hi lo : Byte) : (joinBytes hi lo).toNat = hi.toNat * 256 + lo.toNat :=
  toNat_joined hi lo

theorem toNat_encFA (c : Nibble) (nnn : Addr12) : (encFA c nnn).toNat = c.toNat * 4096 + nnn.toNat :=
  toNat_joined c nnn

theorem toNat_encFI (c : Nibble) (x : Reg) (nn : Byte) :
    (encFI c x nn).toNat = c.toNat * 4096 + x.val * 256 + nn.toNat := by
  have h : (c ++ regBits x ++ nn).toNat = (c.toNat * 2 ^ 4 + x.val) * 2 ^ 8 + nn.toNat := by
    rw [toNat_joined, toNat_joined]
    rfl
  refine Eq.trans h ?_
  ring

theorem toNat_encFR (c : Nibble) (x y : Reg) (n : Nibble) :
    (encFR c x y n).toNat = c.toNat * 4096 + x.val * 256 + y.val * 16 + n.toNat := by
  have h : (c ++ regBits x ++ regBits y ++ n).toNat = ((c.toNat * 2 ^ 4 + x.val) * 2 ^ 4 + y.val) * 2 ^ 4 + n.toNat := by
    rw [toNat_joined, toNat_joined, toNat_joined]
    rfl
  refine Eq.trans h ?_
  ring

/-! ### The fixed bits of a row -/

theorem and_zeros {n : Nat} (b : BitVec n) : b &&& 0 = 0 := BitVec.and_zero

theorem nibble_and_ones (b : Nibble) : b &&& 0xF = b := BitVec.and_allOnes

theorem byte_and_ones (b : Byte) : b &&& 0xFF = b := BitVec.and_allOnes

/-- An `FA` word under the class mask is its class. -/
theorem encFA_masked (c : Nibble) (nnn : Addr12) : encFA c nnn &&& 0xF000 = encFA c 0 := by
  have h : (c ++ nnn) &&& ((0xF : Nibble) ++ (0 : Addr12)) =
      c ++ (0 : Addr12) := by
    simp only [BitVec.and_append, and_zeros, nibble_and_ones]
  exact h

/-- An `FI` word under the class mask is its class. -/
theorem encFI_masked (c : Nibble) (x : Reg) (nn : Byte) : encFI c x nn &&& 0xF000 = encFI c 0 0 := by
  have h : (c ++ regBits x ++ nn) &&& ((0xF : Nibble) ++ (0 : Nibble) ++ (0 : Byte)) =
      c ++ (0 : Nibble) ++ (0 : Byte) := by
    simp only [BitVec.and_append, and_zeros, nibble_and_ones]
  exact h

/-- An `FX` word under the class and function mask is its class and function. -/
theorem encFX_masked (c : Nibble) (x : Reg) (nn : Byte) : encFI c x nn &&& 0xF0FF = encFI c 0 nn := by
  have h : (c ++ regBits x ++ nn) &&& ((0xF : Nibble) ++ (0 : Nibble) ++ (0xFF : Byte)) =
      c ++ (0 : Nibble) ++ nn := by
    simp only [BitVec.and_append, and_zeros, nibble_and_ones, byte_and_ones]
  exact h

/-- An `FR` word under the class and function mask is its class and function. -/
theorem encFR_masked (c : Nibble) (x y : Reg) (n : Nibble) : encFR c x y n &&& 0xF00F = encFR c 0 0 n := by
  have h : (c ++ regBits x ++ regBits y ++ n) &&& ((0xF : Nibble) ++ (0 : Nibble) ++ (0 : Nibble) ++ (0xF : Nibble)) =
      c ++ (0 : Nibble) ++ (0 : Nibble) ++ n := by
    simp only [BitVec.and_append, and_zeros, nibble_and_ones]
  exact h

/-- A `DXYN` word under the class mask is its class. -/
theorem encFD_masked (c : Nibble) (x y : Reg) (n : Nibble) : encFR c x y n &&& 0xF000 = encFR c 0 0 0 := by
  have h : (c ++ regBits x ++ regBits y ++ n) &&& ((0xF : Nibble) ++ (0 : Nibble) ++ (0 : Nibble) ++ (0 : Nibble)) =
      c ++ (0 : Nibble) ++ (0 : Nibble) ++ (0 : Nibble) := by
    simp only [BitVec.and_append, and_zeros, nibble_and_ones]
  exact h

end Sys2Proof
end

