-- ==== Sys2Proof/Laws/Memory.lean ====
section
/-! SUPPORT. The laws of memory: a read after a write, and that every memory operation keeps the canonical form. -/

namespace Sys2Proof.Machine

/-- An address that is not listed reads as the reset contents. -/
theorem Memory.read_of_not_mem (m : Memory) (a : Nat) (h : ∀ c ∈ m, c.1 ≠ a) : Memory.read m a = Memory.unlisted a := by
  induction m with
  | nil => rfl
  | cons c m ih =>
    rw [Memory.read, if_neg (h c List.mem_cons_self)]
    exact ih (fun d hd => h d (List.mem_cons_of_mem _ hd))

theorem Memory.read_remove (m : Memory) (a b : Nat) :
    Memory.read (Memory.remove m a) b = if b = a then Memory.unlisted a else Memory.read m b := by
  induction m with
  | nil => by_cases h : b = a <;> simp [Memory.remove, Memory.read, h]
  | cons c m ih =>
    unfold Memory.remove at ih ⊢
    by_cases hc : c.1 = a
    · simp only [hc, bne_self_eq_false, Bool.false_eq_true, not_false_eq_true, List.filter_cons_of_neg, ih, Memory.read]
      by_cases hb : b = a
      · simp [hb]
      · simp [hb, Ne.symm hb]
    · simp only [bne_iff_ne, ne_eq, hc, not_false_eq_true, List.filter_cons_of_pos, Memory.read, ih]
      by_cases hb : b = a
      · subst hb
        simp [hc]
      · simp [hb]

theorem Memory.read_insert (m : Memory) (a : Nat) (v : Byte) (h : ∀ c ∈ m, c.1 ≠ a) (b : Nat) :
    Memory.read (Memory.insert m (a, v)) b = if b = a then v else Memory.read m b := by
  induction m with
  | nil => simp only [Memory.insert, Memory.read, eq_comm (a := a)]
  | cons d m ih =>
    have hd : d.1 ≠ a := h d List.mem_cons_self
    have hm := ih (fun c hc => h c (List.mem_cons_of_mem _ hc))
    unfold Memory.insert
    split
    · by_cases hb : b = a
      · simp [Memory.read, hb]
      · simp [Memory.read, hb, Ne.symm hb]
    · simp only [Memory.read, hm]
      by_cases hb : b = a
      · simp [hb, hd]
      · simp [hb]

/-- Removing an address leaves no entry of it. -/
theorem Memory.remove_ne (m : Memory) (a : Nat) : ∀ c ∈ Memory.remove m a, c.1 ≠ a := by
  intro c hc
  simpa using (List.mem_filter.mp hc).2

/-- The law of memory: a byte reads back as written, every other as before. -/
@[simp] theorem Memory.read_write (m : Memory) (a : Nat) (v : Byte) (b : Nat) :
    Memory.read (Memory.write m a v) b = if b = a then v else Memory.read m b := by
  unfold Memory.write
  split
  · next hv => simp only [Memory.read_remove, hv]
  · rw [Memory.read_insert _ _ _ (Memory.remove_ne m a), Memory.read_remove]
    by_cases hb : b = a <;> simp [hb]

/-- Bytes of an interpreter's copy: inside the range the bytes copied, outside it as before. -/
theorem Memory.read_writeList (bs : List Byte) (m : Memory) (a b : Nat) :
    Memory.read (Memory.writeList m a bs) b =
      if a ≤ b ∧ b < a + bs.length then bs.getD (b - a) 0 else Memory.read m b := by
  induction bs generalizing m a with
  | nil =>
    have : ¬ (a ≤ b ∧ b < a + ([] : List Byte).length) := by simp
    rw [if_neg this]
    rfl
  | cons v vs ih =>
    rw [Memory.writeList, ih, Memory.read_write, List.length_cons]
    by_cases hab : b = a
    · subst hab
      simp
    · by_cases hin : a + 1 ≤ b ∧ b < a + 1 + vs.length
      · have h2 : a ≤ b ∧ b < a + (vs.length + 1) := by omega
        rw [if_pos hin, if_pos h2, show b - a = (b - (a + 1)) + 1 by omega, List.getD_cons_succ]
      · have h2 : ¬ (a ≤ b ∧ b < a + (vs.length + 1)) := by omega
        rw [if_neg hin, if_neg h2, if_neg hab]

/-! ### The canonical form -/

theorem Memory.wf_nil : Memory.wf [] := by simp [Memory.wf]

theorem Memory.wf_remove (m : Memory) (a : Nat) (h : Memory.wf m) : Memory.wf (Memory.remove m a) :=
  ⟨h.1.filter _, fun c hc => h.2 c (List.mem_filter.mp hc).1⟩

theorem Memory.mem_insert (m : Memory) (c d : Host.Cell) : d ∈ Memory.insert m c ↔ d = c ∨ d ∈ m := by
  induction m with
  | nil => simp [Memory.insert]
  | cons e m ih =>
    unfold Memory.insert
    split
    · simp
    · simp only [List.mem_cons, ih]
      tauto

theorem Memory.wf_insert (m : Memory) (c : Host.Cell) (h : Memory.wf m) (hne : ∀ d ∈ m, d.1 ≠ c.1)
    (hc : c.1 < memSize) (hv : c.2 ≠ Memory.unlisted c.1) : Memory.wf (Memory.insert m c) := by
  refine ⟨?_, fun d hd => ?_⟩
  · obtain ⟨hp, -⟩ := h
    induction m with
    | nil => simp [Memory.insert]
    | cons e m ih =>
      have hec : e.1 ≠ c.1 := hne e List.mem_cons_self
      rw [List.pairwise_cons] at hp
      unfold Memory.insert
      split
      · next hlt =>
        refine List.pairwise_cons.mpr ⟨fun d hd => ?_, List.pairwise_cons.mpr hp⟩
        rcases List.mem_cons.mp hd with rfl | hd
        · exact hlt
        · exact hlt.trans (hp.1 d hd)
      · next hlt =>
        refine List.pairwise_cons.mpr ⟨fun d hd => ?_, ih (fun d hd => hne d (List.mem_cons_of_mem _ hd)) hp.2⟩
        rcases (Memory.mem_insert m c d).mp hd with rfl | hd
        · omega
        · exact hp.1 d hd
  · rcases (Memory.mem_insert m c d).mp hd with rfl | hd
    · exact ⟨hc, hv⟩
    · exact h.2 d hd

/-- Storing a byte inside the address space keeps the canonical form. -/
theorem Memory.wf_write (m : Memory) (a : Nat) (v : Byte) (h : Memory.wf m) (ha : a < memSize) :
    Memory.wf (Memory.write m a v) := by
  unfold Memory.write
  split
  · exact Memory.wf_remove m a h
  · next hv => exact Memory.wf_insert _ _ (Memory.wf_remove m a h) (Memory.remove_ne m a) ha hv

/-- A copy that ends inside the address space keeps the canonical form. -/
theorem Memory.wf_writeList (bs : List Byte) (m : Memory) (a : Nat) (h : Memory.wf m) (ha : a + bs.length ≤ memSize) :
    Memory.wf (Memory.writeList m a bs) := by
  induction bs generalizing m a with
  | nil => exact h
  | cons v vs ih =>
    rw [List.length_cons] at ha
    exact ih _ _ (Memory.wf_write m a v h (by omega)) (by omega)

end Sys2Proof.Machine
end

