-- ==== Sys2Proof/Laws/State.lean ====
section
/-! SUPPORT. What each update of the state does to each field and each read, so that no later proof unfolds a record update. -/

namespace Sys2Proof.Machine

variable (s : State)

/-! ### One lemma per field per update -/

@[simp] theorem State.setReg_v (x : Reg) (b : Byte) : (s.setReg x b).v = s.v.set x.val b x.isLt := rfl
@[simp] theorem State.setReg_i (x : Reg) (b : Byte) : (s.setReg x b).i = s.i := rfl
@[simp] theorem State.setReg_pc (x : Reg) (b : Byte) : (s.setReg x b).pc = s.pc := rfl
@[simp] theorem State.setReg_sp (x : Reg) (b : Byte) : (s.setReg x b).sp = s.sp := rfl
@[simp] theorem State.setReg_stack (x : Reg) (b : Byte) : (s.setReg x b).stack = s.stack := rfl
@[simp] theorem State.setReg_dt (x : Reg) (b : Byte) : (s.setReg x b).dt = s.dt := rfl
@[simp] theorem State.setReg_st (x : Reg) (b : Byte) : (s.setReg x b).st = s.st := rfl
@[simp] theorem State.setReg_key (x : Reg) (b : Byte) : (s.setReg x b).key = s.key := rfl
@[simp] theorem State.setReg_fb (x : Reg) (b : Byte) : (s.setReg x b).fb = s.fb := rfl
@[simp] theorem State.setReg_mem (x : Reg) (b : Byte) : (s.setReg x b).mem = s.mem := rfl
@[simp] theorem State.setReg_run (x : Reg) (b : Byte) : (s.setReg x b).run = s.run := rfl
@[simp] theorem State.setReg_draws (x : Reg) (b : Byte) : (s.setReg x b).draws = s.draws := rfl
@[simp] theorem State.setReg_trace (x : Reg) (b : Byte) : (s.setReg x b).trace = s.trace := rfl

@[simp] theorem State.setI_v (w : Word) : (s.setI w).v = s.v := rfl
@[simp] theorem State.setI_i (w : Word) : (s.setI w).i = w := rfl
@[simp] theorem State.setI_pc (w : Word) : (s.setI w).pc = s.pc := rfl
@[simp] theorem State.setI_sp (w : Word) : (s.setI w).sp = s.sp := rfl
@[simp] theorem State.setI_stack (w : Word) : (s.setI w).stack = s.stack := rfl
@[simp] theorem State.setI_dt (w : Word) : (s.setI w).dt = s.dt := rfl
@[simp] theorem State.setI_st (w : Word) : (s.setI w).st = s.st := rfl
@[simp] theorem State.setI_key (w : Word) : (s.setI w).key = s.key := rfl
@[simp] theorem State.setI_fb (w : Word) : (s.setI w).fb = s.fb := rfl
@[simp] theorem State.setI_mem (w : Word) : (s.setI w).mem = s.mem := rfl
@[simp] theorem State.setI_run (w : Word) : (s.setI w).run = s.run := rfl
@[simp] theorem State.setI_draws (w : Word) : (s.setI w).draws = s.draws := rfl
@[simp] theorem State.setI_trace (w : Word) : (s.setI w).trace = s.trace := rfl

@[simp] theorem State.setPc_v (w : Word) : (s.setPc w).v = s.v := rfl
@[simp] theorem State.setPc_i (w : Word) : (s.setPc w).i = s.i := rfl
@[simp] theorem State.setPc_pc (w : Word) : (s.setPc w).pc = w := rfl
@[simp] theorem State.setPc_sp (w : Word) : (s.setPc w).sp = s.sp := rfl
@[simp] theorem State.setPc_stack (w : Word) : (s.setPc w).stack = s.stack := rfl
@[simp] theorem State.setPc_dt (w : Word) : (s.setPc w).dt = s.dt := rfl
@[simp] theorem State.setPc_st (w : Word) : (s.setPc w).st = s.st := rfl
@[simp] theorem State.setPc_key (w : Word) : (s.setPc w).key = s.key := rfl
@[simp] theorem State.setPc_fb (w : Word) : (s.setPc w).fb = s.fb := rfl
@[simp] theorem State.setPc_mem (w : Word) : (s.setPc w).mem = s.mem := rfl
@[simp] theorem State.setPc_run (w : Word) : (s.setPc w).run = s.run := rfl
@[simp] theorem State.setPc_draws (w : Word) : (s.setPc w).draws = s.draws := rfl
@[simp] theorem State.setPc_trace (w : Word) : (s.setPc w).trace = s.trace := rfl

@[simp] theorem State.setSp_v (d : Fin 17) : (s.setSp d).v = s.v := rfl
@[simp] theorem State.setSp_i (d : Fin 17) : (s.setSp d).i = s.i := rfl
@[simp] theorem State.setSp_pc (d : Fin 17) : (s.setSp d).pc = s.pc := rfl
@[simp] theorem State.setSp_sp (d : Fin 17) : (s.setSp d).sp = d := rfl
@[simp] theorem State.setSp_stack (d : Fin 17) : (s.setSp d).stack = s.stack := rfl
@[simp] theorem State.setSp_dt (d : Fin 17) : (s.setSp d).dt = s.dt := rfl
@[simp] theorem State.setSp_st (d : Fin 17) : (s.setSp d).st = s.st := rfl
@[simp] theorem State.setSp_key (d : Fin 17) : (s.setSp d).key = s.key := rfl
@[simp] theorem State.setSp_fb (d : Fin 17) : (s.setSp d).fb = s.fb := rfl
@[simp] theorem State.setSp_mem (d : Fin 17) : (s.setSp d).mem = s.mem := rfl
@[simp] theorem State.setSp_run (d : Fin 17) : (s.setSp d).run = s.run := rfl
@[simp] theorem State.setSp_draws (d : Fin 17) : (s.setSp d).draws = s.draws := rfl
@[simp] theorem State.setSp_trace (d : Fin 17) : (s.setSp d).trace = s.trace := rfl

@[simp] theorem State.setStack_v (k : Vector Word 16) : (s.setStack k).v = s.v := rfl
@[simp] theorem State.setStack_i (k : Vector Word 16) : (s.setStack k).i = s.i := rfl
@[simp] theorem State.setStack_pc (k : Vector Word 16) : (s.setStack k).pc = s.pc := rfl
@[simp] theorem State.setStack_sp (k : Vector Word 16) : (s.setStack k).sp = s.sp := rfl
@[simp] theorem State.setStack_stack (k : Vector Word 16) : (s.setStack k).stack = k := rfl
@[simp] theorem State.setStack_dt (k : Vector Word 16) : (s.setStack k).dt = s.dt := rfl
@[simp] theorem State.setStack_st (k : Vector Word 16) : (s.setStack k).st = s.st := rfl
@[simp] theorem State.setStack_key (k : Vector Word 16) : (s.setStack k).key = s.key := rfl
@[simp] theorem State.setStack_fb (k : Vector Word 16) : (s.setStack k).fb = s.fb := rfl
@[simp] theorem State.setStack_mem (k : Vector Word 16) : (s.setStack k).mem = s.mem := rfl
@[simp] theorem State.setStack_run (k : Vector Word 16) : (s.setStack k).run = s.run := rfl
@[simp] theorem State.setStack_draws (k : Vector Word 16) : (s.setStack k).draws = s.draws := rfl
@[simp] theorem State.setStack_trace (k : Vector Word 16) : (s.setStack k).trace = s.trace := rfl

@[simp] theorem State.setDt_v (b : Byte) : (s.setDt b).v = s.v := rfl
@[simp] theorem State.setDt_i (b : Byte) : (s.setDt b).i = s.i := rfl
@[simp] theorem State.setDt_pc (b : Byte) : (s.setDt b).pc = s.pc := rfl
@[simp] theorem State.setDt_sp (b : Byte) : (s.setDt b).sp = s.sp := rfl
@[simp] theorem State.setDt_stack (b : Byte) : (s.setDt b).stack = s.stack := rfl
@[simp] theorem State.setDt_dt (b : Byte) : (s.setDt b).dt = b := rfl
@[simp] theorem State.setDt_st (b : Byte) : (s.setDt b).st = s.st := rfl
@[simp] theorem State.setDt_key (b : Byte) : (s.setDt b).key = s.key := rfl
@[simp] theorem State.setDt_fb (b : Byte) : (s.setDt b).fb = s.fb := rfl
@[simp] theorem State.setDt_mem (b : Byte) : (s.setDt b).mem = s.mem := rfl
@[simp] theorem State.setDt_run (b : Byte) : (s.setDt b).run = s.run := rfl
@[simp] theorem State.setDt_draws (b : Byte) : (s.setDt b).draws = s.draws := rfl
@[simp] theorem State.setDt_trace (b : Byte) : (s.setDt b).trace = s.trace := rfl

@[simp] theorem State.setSt_v (b : Byte) : (s.setSt b).v = s.v := rfl
@[simp] theorem State.setSt_i (b : Byte) : (s.setSt b).i = s.i := rfl
@[simp] theorem State.setSt_pc (b : Byte) : (s.setSt b).pc = s.pc := rfl
@[simp] theorem State.setSt_sp (b : Byte) : (s.setSt b).sp = s.sp := rfl
@[simp] theorem State.setSt_stack (b : Byte) : (s.setSt b).stack = s.stack := rfl
@[simp] theorem State.setSt_dt (b : Byte) : (s.setSt b).dt = s.dt := rfl
@[simp] theorem State.setSt_st (b : Byte) : (s.setSt b).st = b := rfl
@[simp] theorem State.setSt_key (b : Byte) : (s.setSt b).key = s.key := rfl
@[simp] theorem State.setSt_fb (b : Byte) : (s.setSt b).fb = s.fb := rfl
@[simp] theorem State.setSt_mem (b : Byte) : (s.setSt b).mem = s.mem := rfl
@[simp] theorem State.setSt_run (b : Byte) : (s.setSt b).run = s.run := rfl
@[simp] theorem State.setSt_draws (b : Byte) : (s.setSt b).draws = s.draws := rfl
@[simp] theorem State.setSt_trace (b : Byte) : (s.setSt b).trace = s.trace := rfl

@[simp] theorem State.setKeyAt_v (k : Key) (p : Bool) : (s.setKeyAt k p).v = s.v := rfl
@[simp] theorem State.setKeyAt_i (k : Key) (p : Bool) : (s.setKeyAt k p).i = s.i := rfl
@[simp] theorem State.setKeyAt_pc (k : Key) (p : Bool) : (s.setKeyAt k p).pc = s.pc := rfl
@[simp] theorem State.setKeyAt_sp (k : Key) (p : Bool) : (s.setKeyAt k p).sp = s.sp := rfl
@[simp] theorem State.setKeyAt_stack (k : Key) (p : Bool) : (s.setKeyAt k p).stack = s.stack := rfl
@[simp] theorem State.setKeyAt_dt (k : Key) (p : Bool) : (s.setKeyAt k p).dt = s.dt := rfl
@[simp] theorem State.setKeyAt_st (k : Key) (p : Bool) : (s.setKeyAt k p).st = s.st := rfl
@[simp] theorem State.setKeyAt_key (k : Key) (p : Bool) : (s.setKeyAt k p).key = s.key.set k.val p k.isLt := rfl
@[simp] theorem State.setKeyAt_fb (k : Key) (p : Bool) : (s.setKeyAt k p).fb = s.fb := rfl
@[simp] theorem State.setKeyAt_mem (k : Key) (p : Bool) : (s.setKeyAt k p).mem = s.mem := rfl
@[simp] theorem State.setKeyAt_run (k : Key) (p : Bool) : (s.setKeyAt k p).run = s.run := rfl
@[simp] theorem State.setKeyAt_draws (k : Key) (p : Bool) : (s.setKeyAt k p).draws = s.draws := rfl
@[simp] theorem State.setKeyAt_trace (k : Key) (p : Bool) : (s.setKeyAt k p).trace = s.trace := rfl

@[simp] theorem State.setFb_v (g : Framebuffer) : (s.setFb g).v = s.v := rfl
@[simp] theorem State.setFb_i (g : Framebuffer) : (s.setFb g).i = s.i := rfl
@[simp] theorem State.setFb_pc (g : Framebuffer) : (s.setFb g).pc = s.pc := rfl
@[simp] theorem State.setFb_sp (g : Framebuffer) : (s.setFb g).sp = s.sp := rfl
@[simp] theorem State.setFb_stack (g : Framebuffer) : (s.setFb g).stack = s.stack := rfl
@[simp] theorem State.setFb_dt (g : Framebuffer) : (s.setFb g).dt = s.dt := rfl
@[simp] theorem State.setFb_st (g : Framebuffer) : (s.setFb g).st = s.st := rfl
@[simp] theorem State.setFb_key (g : Framebuffer) : (s.setFb g).key = s.key := rfl
@[simp] theorem State.setFb_fb (g : Framebuffer) : (s.setFb g).fb = g := rfl
@[simp] theorem State.setFb_mem (g : Framebuffer) : (s.setFb g).mem = s.mem := rfl
@[simp] theorem State.setFb_run (g : Framebuffer) : (s.setFb g).run = s.run := rfl
@[simp] theorem State.setFb_draws (g : Framebuffer) : (s.setFb g).draws = s.draws := rfl
@[simp] theorem State.setFb_trace (g : Framebuffer) : (s.setFb g).trace = s.trace := rfl

@[simp] theorem State.setMem_v (m : Memory) : (s.setMem m).v = s.v := rfl
@[simp] theorem State.setMem_i (m : Memory) : (s.setMem m).i = s.i := rfl
@[simp] theorem State.setMem_pc (m : Memory) : (s.setMem m).pc = s.pc := rfl
@[simp] theorem State.setMem_sp (m : Memory) : (s.setMem m).sp = s.sp := rfl
@[simp] theorem State.setMem_stack (m : Memory) : (s.setMem m).stack = s.stack := rfl
@[simp] theorem State.setMem_dt (m : Memory) : (s.setMem m).dt = s.dt := rfl
@[simp] theorem State.setMem_st (m : Memory) : (s.setMem m).st = s.st := rfl
@[simp] theorem State.setMem_key (m : Memory) : (s.setMem m).key = s.key := rfl
@[simp] theorem State.setMem_fb (m : Memory) : (s.setMem m).fb = s.fb := rfl
@[simp] theorem State.setMem_mem (m : Memory) : (s.setMem m).mem = m := rfl
@[simp] theorem State.setMem_run (m : Memory) : (s.setMem m).run = s.run := rfl
@[simp] theorem State.setMem_draws (m : Memory) : (s.setMem m).draws = s.draws := rfl
@[simp] theorem State.setMem_trace (m : Memory) : (s.setMem m).trace = s.trace := rfl

@[simp] theorem State.setRun_v (r : RunState) : (s.setRun r).v = s.v := rfl
@[simp] theorem State.setRun_i (r : RunState) : (s.setRun r).i = s.i := rfl
@[simp] theorem State.setRun_pc (r : RunState) : (s.setRun r).pc = s.pc := rfl
@[simp] theorem State.setRun_sp (r : RunState) : (s.setRun r).sp = s.sp := rfl
@[simp] theorem State.setRun_stack (r : RunState) : (s.setRun r).stack = s.stack := rfl
@[simp] theorem State.setRun_dt (r : RunState) : (s.setRun r).dt = s.dt := rfl
@[simp] theorem State.setRun_st (r : RunState) : (s.setRun r).st = s.st := rfl
@[simp] theorem State.setRun_key (r : RunState) : (s.setRun r).key = s.key := rfl
@[simp] theorem State.setRun_fb (r : RunState) : (s.setRun r).fb = s.fb := rfl
@[simp] theorem State.setRun_mem (r : RunState) : (s.setRun r).mem = s.mem := rfl
@[simp] theorem State.setRun_run (r : RunState) : (s.setRun r).run = r := rfl
@[simp] theorem State.setRun_draws (r : RunState) : (s.setRun r).draws = s.draws := rfl
@[simp] theorem State.setRun_trace (r : RunState) : (s.setRun r).trace = s.trace := rfl

@[simp] theorem State.setDraws_v (n : Nat) : (s.setDraws n).v = s.v := rfl
@[simp] theorem State.setDraws_i (n : Nat) : (s.setDraws n).i = s.i := rfl
@[simp] theorem State.setDraws_pc (n : Nat) : (s.setDraws n).pc = s.pc := rfl
@[simp] theorem State.setDraws_sp (n : Nat) : (s.setDraws n).sp = s.sp := rfl
@[simp] theorem State.setDraws_stack (n : Nat) : (s.setDraws n).stack = s.stack := rfl
@[simp] theorem State.setDraws_dt (n : Nat) : (s.setDraws n).dt = s.dt := rfl
@[simp] theorem State.setDraws_st (n : Nat) : (s.setDraws n).st = s.st := rfl
@[simp] theorem State.setDraws_key (n : Nat) : (s.setDraws n).key = s.key := rfl
@[simp] theorem State.setDraws_fb (n : Nat) : (s.setDraws n).fb = s.fb := rfl
@[simp] theorem State.setDraws_mem (n : Nat) : (s.setDraws n).mem = s.mem := rfl
@[simp] theorem State.setDraws_run (n : Nat) : (s.setDraws n).run = s.run := rfl
@[simp] theorem State.setDraws_draws (n : Nat) : (s.setDraws n).draws = n := rfl
@[simp] theorem State.setDraws_trace (n : Nat) : (s.setDraws n).trace = s.trace := rfl

@[simp] theorem State.emit_v (e : Event) : (s.emit e).v = s.v := rfl
@[simp] theorem State.emit_i (e : Event) : (s.emit e).i = s.i := rfl
@[simp] theorem State.emit_pc (e : Event) : (s.emit e).pc = s.pc := rfl
@[simp] theorem State.emit_sp (e : Event) : (s.emit e).sp = s.sp := rfl
@[simp] theorem State.emit_stack (e : Event) : (s.emit e).stack = s.stack := rfl
@[simp] theorem State.emit_dt (e : Event) : (s.emit e).dt = s.dt := rfl
@[simp] theorem State.emit_st (e : Event) : (s.emit e).st = s.st := rfl
@[simp] theorem State.emit_key (e : Event) : (s.emit e).key = s.key := rfl
@[simp] theorem State.emit_fb (e : Event) : (s.emit e).fb = s.fb := rfl
@[simp] theorem State.emit_mem (e : Event) : (s.emit e).mem = s.mem := rfl
@[simp] theorem State.emit_run (e : Event) : (s.emit e).run = s.run := rfl
@[simp] theorem State.emit_draws (e : Event) : (s.emit e).draws = s.draws := rfl
@[simp] theorem State.emit_trace (e : Event) : (s.emit e).trace = e :: s.trace := rfl

/-! ### Reads after an update -/

@[simp] theorem State.setReg_keyAt (x : Reg) (b : Byte) (y : Key) : (s.setReg x b).keyAt y = s.keyAt y := rfl
@[simp] theorem State.setReg_readByte (x : Reg) (b : Byte) (y : Word) : (s.setReg x b).readByte y = s.readByte y := rfl
@[simp] theorem State.setI_reg (w : Word) (y : Reg) : (s.setI w).reg y = s.reg y := rfl
@[simp] theorem State.setI_keyAt (w : Word) (y : Key) : (s.setI w).keyAt y = s.keyAt y := rfl
@[simp] theorem State.setI_readByte (w : Word) (y : Word) : (s.setI w).readByte y = s.readByte y := rfl
@[simp] theorem State.setPc_reg (w : Word) (y : Reg) : (s.setPc w).reg y = s.reg y := rfl
@[simp] theorem State.setPc_keyAt (w : Word) (y : Key) : (s.setPc w).keyAt y = s.keyAt y := rfl
@[simp] theorem State.setPc_readByte (w : Word) (y : Word) : (s.setPc w).readByte y = s.readByte y := rfl
@[simp] theorem State.setSp_reg (d : Fin 17) (y : Reg) : (s.setSp d).reg y = s.reg y := rfl
@[simp] theorem State.setSp_keyAt (d : Fin 17) (y : Key) : (s.setSp d).keyAt y = s.keyAt y := rfl
@[simp] theorem State.setSp_readByte (d : Fin 17) (y : Word) : (s.setSp d).readByte y = s.readByte y := rfl
@[simp] theorem State.setStack_reg (k : Vector Word 16) (y : Reg) : (s.setStack k).reg y = s.reg y := rfl
@[simp] theorem State.setStack_keyAt (k : Vector Word 16) (y : Key) : (s.setStack k).keyAt y = s.keyAt y := rfl
@[simp] theorem State.setStack_readByte (k : Vector Word 16) (y : Word) : (s.setStack k).readByte y = s.readByte y := rfl
@[simp] theorem State.setDt_reg (b : Byte) (y : Reg) : (s.setDt b).reg y = s.reg y := rfl
@[simp] theorem State.setDt_keyAt (b : Byte) (y : Key) : (s.setDt b).keyAt y = s.keyAt y := rfl
@[simp] theorem State.setDt_readByte (b : Byte) (y : Word) : (s.setDt b).readByte y = s.readByte y := rfl
@[simp] theorem State.setSt_reg (b : Byte) (y : Reg) : (s.setSt b).reg y = s.reg y := rfl
@[simp] theorem State.setSt_keyAt (b : Byte) (y : Key) : (s.setSt b).keyAt y = s.keyAt y := rfl
@[simp] theorem State.setSt_readByte (b : Byte) (y : Word) : (s.setSt b).readByte y = s.readByte y := rfl
@[simp] theorem State.setKeyAt_reg (k : Key) (p : Bool) (y : Reg) : (s.setKeyAt k p).reg y = s.reg y := rfl
@[simp] theorem State.setKeyAt_readByte (k : Key) (p : Bool) (y : Word) : (s.setKeyAt k p).readByte y = s.readByte y := rfl
@[simp] theorem State.setFb_reg (g : Framebuffer) (y : Reg) : (s.setFb g).reg y = s.reg y := rfl
@[simp] theorem State.setFb_keyAt (g : Framebuffer) (y : Key) : (s.setFb g).keyAt y = s.keyAt y := rfl
@[simp] theorem State.setFb_readByte (g : Framebuffer) (y : Word) : (s.setFb g).readByte y = s.readByte y := rfl
@[simp] theorem State.setMem_reg (m : Memory) (y : Reg) : (s.setMem m).reg y = s.reg y := rfl
@[simp] theorem State.setMem_keyAt (m : Memory) (y : Key) : (s.setMem m).keyAt y = s.keyAt y := rfl
@[simp] theorem State.setRun_reg (r : RunState) (y : Reg) : (s.setRun r).reg y = s.reg y := rfl
@[simp] theorem State.setRun_keyAt (r : RunState) (y : Key) : (s.setRun r).keyAt y = s.keyAt y := rfl
@[simp] theorem State.setRun_readByte (r : RunState) (y : Word) : (s.setRun r).readByte y = s.readByte y := rfl
@[simp] theorem State.setDraws_reg (n : Nat) (y : Reg) : (s.setDraws n).reg y = s.reg y := rfl
@[simp] theorem State.setDraws_keyAt (n : Nat) (y : Key) : (s.setDraws n).keyAt y = s.keyAt y := rfl
@[simp] theorem State.setDraws_readByte (n : Nat) (y : Word) : (s.setDraws n).readByte y = s.readByte y := rfl
@[simp] theorem State.emit_reg (e : Event) (y : Reg) : (s.emit e).reg y = s.reg y := rfl
@[simp] theorem State.emit_keyAt (e : Event) (y : Key) : (s.emit e).keyAt y = s.keyAt y := rfl
@[simp] theorem State.emit_readByte (e : Event) (y : Word) : (s.emit e).readByte y = s.readByte y := rfl

/-- A register reads back what was written to it, and every other as before. -/
@[simp] theorem State.setReg_reg (x : Reg) (b : Byte) (y : Reg) :
    (s.setReg x b).reg y = if y = x then b else s.reg y := by
  simp only [State.reg, State.setReg, Vector.getElem_set, Fin.ext_iff, eq_comm]

/-- A key reads back what was written to it, and every other as before. -/
@[simp] theorem State.setKeyAt_keyAt (k : Key) (p : Bool) (y : Key) :
    (s.setKeyAt k p).keyAt y = if y = k then p else s.keyAt y := by
  simp only [State.keyAt, State.setKeyAt, Vector.getElem_set, Fin.ext_iff, eq_comm]

/-- Reading a byte is reading the memory at the reduced address. -/
theorem State.readByte_eq (a : Word) : s.readByte a = s.mem.read (effective a) := rfl

/-- Two states are equal when their registers agree and so do all their other fields. -/
theorem State.ext_reg {s t : State} (hr : ∀ x, t.reg x = s.reg x) (h : { t with v := s.v } = s) : t = s := by
  have hv : t.v = s.v := Vector.ext (fun k hk => hr ⟨k, hk⟩)
  rw [← hv] at h
  exact h

/-! ### Composite updates -/

@[simp] theorem State.raise_eq (e : Error) : s.raise e = s.emit (.raised e) := rfl

@[simp] theorem State.raiseFatal_eq (e : Error) : s.raiseFatal e = (s.setRun (.halted e.kind)).emit (.raised e) := rfl

@[simp] theorem State.setVF_eq (f : Bool) : s.setVF f = s.setReg flagReg (flagByte f) := rfl

@[simp] theorem State.setRegFlag_eq (x : Reg) (b : Byte) (f : Bool) :
    s.setRegFlag x b f = (s.setReg x b).setReg flagReg (flagByte f) := rfl

@[simp] theorem State.draw_eq : s.draw = (Config.draw s.draws, s.setDraws (s.draws + 1)) := rfl

/-- A skip changes `pc` or nothing. -/
theorem State.skipIf_eq (c : Bool) : s.skipIf c = s.setPc (if c then s.pc + 2 else s.pc) := by
  cases c <;> rfl

/-- The increment of `I` changes `I` or nothing. -/
theorem State.incrementIIn_eq (d : Dialect) (x : Reg) :
    s.incrementIIn d x = s.setI (if d.memOpsIncrementI then s.i + BitVec.ofNat 16 (x.val + 1) else s.i) := by
  unfold State.incrementIIn
  split <;> rfl

end Sys2Proof.Machine
end

