-- ==== Sys2Proof/Laws/Ops.lean ====
section
/-! SUPPORT. For each shared operation, one lemma that says once everything it can do. -/

namespace Sys2Proof.Machine

/-! ### Addresses -/

theorem effective_lt (a : Word) : effective a < memSize := Nat.mod_lt _ (by decide)

/-- The memory at reset is in canonical form. -/
theorem State.reset_mem_wf : Memory.wf State.reset.mem := Memory.wf_nil

/-- A store of a byte is seen at its address, every other byte reads as before. -/
@[simp] theorem State.pokeByte_readByte (s : State) (ea : Nat) (b : Byte) (a : Word) :
    (s.pokeByte ea b).readByte a = if effective a = ea then b else s.readByte a := by
  simp [State.pokeByte, State.readByte_eq]

/-! ### The call stack -/

/-- A push at depth `k` below 16 writes entry `k` and raises the depth. -/
theorem State.push?_of_lt (s : State) (w : Word) (k : Nat) (hk : k < 16) (hsp : s.sp.val = k) :
    s.push? w = some ((s.setStack (s.stack.set k w hk)).setSp ⟨k + 1, by omega⟩) := by
  subst hsp
  simp [State.push?, hk]

/-- A push at depth 16 is refused. -/
theorem State.push?_full (s : State) (w : Word) (h : s.sp.val = 16) : s.push? w = none := by
  simp [State.push?, h]

/-- A pop at depth `k + 1` gives entry `k` and lowers the depth. -/
theorem State.pop?_of_pos (s : State) (k : Nat) (hk : k < 16) (hsp : s.sp.val = k + 1) :
    s.pop? = some (s.stack[k], s.setSp ⟨k, by omega⟩) := by
  simp [State.pop?, hsp]

/-- A pop of the empty stack is refused. -/
theorem State.pop?_empty (s : State) (h : s.sp.val = 0) : s.pop? = none := by
  simp [State.pop?, h]

/-! ### Stores -/

/-- All a store can do: drop the byte, write it, or stop with `ReservedWrite`. -/
theorem storeByteIn_cases (d : Dialect) (a : Word) (b : Byte) (s : State) :
    (effective a < reservedTop ∧ d.reservedWrite = .ignore ∧ storeByteIn d a b s = .done s) ∨
    ((reservedTop ≤ effective a ∨ d.reservedWrite = .allow) ∧
      storeByteIn d a b s = .done (s.pokeByte (effective a) b)) ∨
    (effective a < reservedTop ∧ d.reservedWrite = .fault ∧
      storeByteIn d a b s = .stopped (s.raiseFatal (.reservedWrite (BitVec.ofNat 16 (effective a))))) := by
  unfold storeByteIn
  by_cases h : effective a < reservedTop
  · cases hd : d.reservedWrite <;> simp [h]
  · simp [h, Nat.le_of_not_lt h]

/-- The address of byte `k` from `a` on, reduced (R36): the 16-bit wrap does not show, 0x10000 being a multiple of 4096. -/
theorem effective_add (a : Word) (k : Nat) : effective (a + BitVec.ofNat 16 k) = (a.toNat + k) % 4096 := by
  unfold effective memSize
  simp only [BitVec.toNat_add, BitVec.toNat_ofNat]
  omega

/-- The bytes of a short run have different addresses. -/
theorem effective_add_inj (a : Word) {j k : Nat} (hj : j < 4096) (hk : k < 4096)
    (h : effective (a + BitVec.ofNat 16 j) = effective (a + BitVec.ofNat 16 k)) : j = k := by
  rw [effective_add, effective_add] at h
  omega

/-- A reduced address is its own 16-bit value. -/
@[simp] theorem toNat_ofNat_effective (a : Word) : (BitVec.ofNat 16 (effective a)).toNat = effective a := by
  have := effective_lt a
  unfold memSize at this
  simp only [BitVec.toNat_ofNat]
  omega

/-- All a run of stores can do: change memory and nothing else, or change memory and stop with `ReservedWrite` of a reserved
address. -/
theorem storeBytesIn_cases (d : Dialect) (a : Word) (bs : List Byte) (s : State) :
    (∃ m, storeBytesIn d a bs s = .done (s.setMem m)) ∨
    (d.reservedWrite = .fault ∧ ∃ m ea, ea.toNat < reservedTop ∧
      storeBytesIn d a bs s = .stopped ((s.setMem m).raiseFatal (.reservedWrite ea))) := by
  induction bs generalizing a s with
  | nil => exact .inl ⟨s.mem, rfl⟩
  | cons b bs ih =>
    rw [storeBytesIn]
    rcases storeByteIn_cases d a b s with ⟨-, -, h⟩ | ⟨-, h⟩ | ⟨ha, hf, h⟩ <;> simp only [h]
    · exact ih (a + 1) s
    · rcases ih (a + 1) (s.pokeByte (effective a) b) with ⟨m, hm⟩ | ⟨hf, m, ea, hm⟩
      · exact .inl ⟨m, hm⟩
      · exact .inr ⟨hf, m, ea, hm⟩
    · exact .inr ⟨hf, s.mem, _, by rwa [toNat_ofNat_effective], rfl⟩

/-- A property of memory that every single store keeps holds after a run of stores, stopped or not. -/
theorem storeBytesIn_mem (d : Dialect) (P : Memory → Prop)
    (hP : ∀ m a b, reservedTop ≤ effective a ∨ d.reservedWrite = .allow → P m → P (Memory.write m (effective a) b))
    (bs : List Byte) (a : Word) (s : State) (h : P s.mem) (f : State → State) (hf : ∀ t, (f t).mem = t.mem) :
    P ((storeBytesIn d a bs s).andThen f).mem := by
  induction bs generalizing a s with
  | nil => simpa [storeBytesIn, Stored.andThen, hf] using h
  | cons b bs ih =>
    rw [storeBytesIn]
    rcases storeByteIn_cases d a b s with ⟨-, -, hs⟩ | ⟨ha, hs⟩ | ⟨-, -, hs⟩ <;> simp only [hs]
    · exact ih (a + 1) s h
    · exact ih (a + 1) _ (hP _ _ _ ha h)
    · simpa [Stored.andThen] using h

/-- A run of stores leaves every byte outside its window as before. -/
theorem storeBytesIn_readByte (d : Dialect) (bs : List Byte) (a : Word) (s : State) (f : State → State)
    (hf : ∀ t, (f t).mem = t.mem) (c : Word)
    (hc : ∀ k, k < bs.length → effective c ≠ effective (a + BitVec.ofNat 16 k)) :
    ((storeBytesIn d a bs s).andThen f).readByte c = s.readByte c := by
  induction bs generalizing a s with
  | nil => simp [storeBytesIn, Stored.andThen, State.readByte_eq, hf]
  | cons b bs ih =>
    have h0 : effective c ≠ effective a := by simpa using hc 0 (by simp)
    have hrest : ∀ k, k < bs.length → effective c ≠ effective (a + 1 + BitVec.ofNat 16 k) := by
      intro k hk
      have := hc (k + 1) (by simpa using hk)
      rwa [show a + 1 + BitVec.ofNat 16 k = a + BitVec.ofNat 16 (k + 1) by
        rw [BitVec.add_assoc, BitVec.ofNat_add, BitVec.add_comm 1]; rfl]
    rw [storeBytesIn]
    rcases storeByteIn_cases d a b s with ⟨-, -, hs⟩ | ⟨-, hs⟩ | ⟨-, -, hs⟩ <;> simp only [hs]
    · exact ih (a + 1) s hrest
    · rw [ih (a + 1) _ hrest, State.pokeByte_readByte, if_neg h0]
    · simp [Stored.andThen]

/-- The address after `k` more bytes, counted from the next one. -/
theorem add_one_add (a : Word) (k : Nat) : a + 1 + BitVec.ofNat 16 k = a + BitVec.ofNat 16 (k + 1) := by
  rw [BitVec.add_assoc, BitVec.ofNat_add, BitVec.add_comm 1]
  rfl

/-- A store that the dialect does not make an error is no stop. -/
theorem storeBytesIn_done (d : Dialect) (hd : d.reservedWrite ≠ .fault) (a : Word) (bs : List Byte) (s : State) :
    ∃ m, storeBytesIn d a bs s = .done (s.setMem m) :=
  (storeBytesIn_cases d a bs s).resolve_right (fun h => hd h.1)

/-- Where no write is an error, byte `k` of a run of stores is at the `k`-th address after it, unless that address is reserved
and the dialect drops the write. -/
theorem storeBytesIn_readByte_at (d : Dialect) (hd : d.reservedWrite ≠ .fault) (f : State → State)
    (hf : ∀ t, (f t).mem = t.mem) (bs : List Byte) (hl : bs.length ≤ 4096) (a : Word) (s : State) (k : Nat)
    (hk : k < bs.length) :
    ((storeBytesIn d a bs s).andThen f).readByte (a + BitVec.ofNat 16 k) =
      if reservedTop ≤ effective (a + BitVec.ofNat 16 k) ∨ d.reservedWrite = .allow then bs[k]
      else s.readByte (a + BitVec.ofNat 16 k) := by
  induction bs generalizing a s k with
  | nil => exact absurd hk (Nat.not_lt_zero k)
  | cons b bs ih =>
    rw [List.length_cons] at hl hk
    have hne : ∀ j, j < bs.length → effective a ≠ effective (a + 1 + BitVec.ofNat 16 j) := fun j hj he => by
      rw [add_one_add] at he
      have := effective_add_inj a (j := 0) (k := j + 1) (by omega) (by omega) (by simpa using he)
      omega
    cases k with
    | zero =>
      simp only [BitVec.add_zero, List.getElem_cons_zero]
      rw [storeBytesIn]
      rcases storeByteIn_cases d a b s with ⟨ha, hg, hs⟩ | ⟨ha, hs⟩ | ⟨-, hg, -⟩
      · simp only [hs]
        rw [storeBytesIn_readByte d bs (a + 1) s f hf a hne, if_neg]
        simp [Nat.not_le.mpr ha, hg]
      · simp only [hs]
        rw [storeBytesIn_readByte d bs (a + 1) _ f hf a hne, State.pokeByte_readByte, if_pos rfl, if_pos ha]
      · exact absurd hg hd
    | succ k =>
      have hk' : k < bs.length := by omega
      have h0 : effective (a + BitVec.ofNat 16 (k + 1)) ≠ effective a := by
        rw [← add_one_add]
        exact (hne k hk').symm
      rw [storeBytesIn, List.getElem_cons_succ, ← add_one_add]
      rw [← add_one_add] at h0
      rcases storeByteIn_cases d a b s with ⟨-, -, hs⟩ | ⟨-, hs⟩ | ⟨-, hg, -⟩
      · simp only [hs]
        exact ih (by omega) (a + 1) s k hk'
      · simp only [hs]
        rw [ih (by omega) (a + 1) _ k hk', State.pokeByte_readByte, if_neg h0]
      · exact absurd hg hd

/-- Storing two lists is storing the first and then, if it did not stop, the second after it. -/
theorem storeBytesIn_append (d : Dialect) (bs cs : List Byte) (a : Word) (s : State) :
    storeBytesIn d a (bs ++ cs) s =
      match storeBytesIn d a bs s with
      | .done t => storeBytesIn d (a + BitVec.ofNat 16 bs.length) cs t
      | .stopped t => .stopped t := by
  induction bs generalizing a s with
  | nil => simp [storeBytesIn]
  | cons b bs ih =>
    rw [List.cons_append, storeBytesIn, storeBytesIn]
    cases storeByteIn d a b s with
    | done t =>
      simp only [ih, List.length_cons, add_one_add]
    | stopped t => rfl

/-- Stores that meet no reserved address do not stop, and write every byte, in any dialect. -/
theorem storeBytesIn_unreserved (d : Dialect) (bs : List Byte) (hl : bs.length ≤ 4096) (a : Word) (s : State)
    (h : ∀ k, k < bs.length → reservedTop ≤ effective (a + BitVec.ofNat 16 k)) :
    ∃ m, storeBytesIn d a bs s = .done (s.setMem m) ∧
      ∀ k (hk : k < bs.length), m.read (effective (a + BitVec.ofNat 16 k)) = bs[k] := by
  induction bs generalizing a s with
  | nil => exact ⟨s.mem, rfl, fun k hk => absurd hk (Nat.not_lt_zero k)⟩
  | cons b bs ih =>
    rw [List.length_cons] at hl h
    have h0 : reservedTop ≤ effective a := by simpa using h 0 (by omega)
    have hs : storeByteIn d a b s = .done (s.pokeByte (effective a) b) := by
      simp [storeByteIn, Nat.not_lt.mpr h0]
    obtain ⟨m, hm, hr⟩ := ih (by omega) (a + 1) (s.pokeByte (effective a) b) (fun k hk => by
      rw [add_one_add]
      exact h (k + 1) (by omega))
    refine ⟨m, by rw [storeBytesIn, hs]; exact hm, fun k hk => ?_⟩
    cases k with
    | zero =>
      have hread := storeBytesIn_readByte d bs (a + 1) (s.pokeByte (effective a) b) id (fun _ => rfl) a (fun j hj he => by
        rw [add_one_add] at he
        have := effective_add_inj a (j := 0) (k := j + 1) (by omega) (by omega) (by simpa using he)
        omega)
      rw [hm] at hread
      simpa [Stored.andThen, State.readByte_eq, State.pokeByte] using hread
    | succ k =>
      have hrk := hr k (by simpa using hk)
      rw [add_one_add] at hrk
      simpa using hrk

/-- Under `FAULT`, stores stop at their first reserved address: the bytes before it are written, no other byte changes, and the
core halts with that address. -/
theorem storeBytesIn_stops (d : Dialect) (hd : d.reservedWrite = .fault) (bs : List Byte) (a : Word) (s : State) (j : Nat)
    (hj : j < bs.length) (hj' : j ≤ 4096) (hlow : effective (a + BitVec.ofNat 16 j) < reservedTop)
    (hhigh : ∀ k, k < j → reservedTop ≤ effective (a + BitVec.ofNat 16 k)) :
    ∃ m, storeBytesIn d a bs s =
        .stopped ((s.setMem m).raiseFatal (.reservedWrite (BitVec.ofNat 16 (effective (a + BitVec.ofNat 16 j))))) ∧
      (∀ k (hk : k < j), m.read (effective (a + BitVec.ofNat 16 k)) = bs[k]) ∧
      ∀ c : Word, (∀ k, k < j → effective c ≠ effective (a + BitVec.ofNat 16 k)) → m.read (effective c) = s.readByte c := by
  have hl : (bs.take j).length = j := by
    rw [List.length_take]
    omega
  obtain ⟨m, hm, hr⟩ := storeBytesIn_unreserved d (bs.take j) (by omega) a s (fun k hk => hhigh k (by omega))
  refine ⟨m, ?_, fun k hk => ?_, fun c hc => ?_⟩
  · conv_lhs => rw [← List.take_append_drop j bs, storeBytesIn_append, hm, List.drop_eq_getElem_cons hj]
    simp only [hl, storeBytesIn]
    simp [storeByteIn, hlow, hd]
  · rw [hr k (by omega), List.getElem_take]
  · have hread := storeBytesIn_readByte d (bs.take j) a s id (fun _ => rfl) c (fun k hk => hc k (by omega))
    rw [hm] at hread
    exact hread

/-! ### Register ranges -/

/-- The range of FX55 and FX65 holds exactly the registers up to `x`. -/
@[simp] theorem mem_regsTo (x r : Reg) : r ∈ regsTo x ↔ r ≤ x := by
  simp [regsTo]

theorem length_regsTo (x : Reg) : (regsTo x).length = x.val + 1 := by
  revert x
  decide

/-- The range in order: its `k`-th register is `k`. -/
theorem getElem_regsTo (x : Reg) (k : Nat) (hk : k < (regsTo x).length) : ((regsTo x)[k]).val = k := by
  have h : ∀ x : Reg, ∀ k : Fin 16, ∀ hk : k.val < (regsTo x).length, ((regsTo x)[k.val]).val = k.val := by decide
  have hx := length_regsTo x
  exact h x ⟨k, by omega⟩ hk

theorem nodup_regsTo (x : Reg) : (regsTo x).Nodup :=
  (List.nodup_finRange 16).filter _

/-- A load of registers changes the register file alone. -/
theorem loadRegs_eq (a : Word) (rs : List Reg) (s : State) : ∃ v, loadRegs a rs s = { s with v := v } := by
  induction rs generalizing a s with
  | nil => exact ⟨s.v, rfl⟩
  | cons r rs ih =>
    obtain ⟨v, hv⟩ := ih (a + 1) (s.setReg r (s.readByte a))
    exact ⟨v, hv⟩

/-- A load of registers leaves the others as they were. -/
theorem loadRegs_reg_of_not_mem (a : Word) (rs : List Reg) (s : State) (r : Reg) (h : r ∉ rs) :
    (loadRegs a rs s).reg r = s.reg r := by
  induction rs generalizing a s with
  | nil => rfl
  | cons q rs ih =>
    rw [List.mem_cons, not_or] at h
    rw [loadRegs, ih _ _ h.2, State.setReg_reg, if_neg h.1]

/-- A load of registers reads byte `k` into the `k`-th of them. -/
theorem loadRegs_reg_at (rs : List Reg) (hn : rs.Nodup) (a : Word) (s : State) (k : Nat) (hk : k < rs.length) :
    (loadRegs a rs s).reg rs[k] = s.readByte (a + BitVec.ofNat 16 k) := by
  induction rs generalizing a s k with
  | nil => exact absurd hk (Nat.not_lt_zero k)
  | cons r rs ih =>
    rw [List.nodup_cons] at hn
    rw [loadRegs]
    cases k with
    | zero => simp [loadRegs_reg_of_not_mem _ _ _ _ hn.1]
    | succ k =>
      rw [List.getElem_cons_succ, ih hn.2 _ _ k (by simpa using hk), State.setReg_readByte, add_one_add]

/-- FX65's load: the registers up to `x` from their own offsets, the others as before. -/
theorem loadRegs_regsTo_reg (x r : Reg) (a : Word) (s : State) :
    (loadRegs a (regsTo x) s).reg r = if r ≤ x then s.readByte (a + BitVec.ofNat 16 r.val) else s.reg r := by
  split
  · next h =>
    have hk : r.val < (regsTo x).length := by
      rw [length_regsTo]
      exact Nat.lt_succ_of_le h
    have hr : (regsTo x)[r.val] = r := Fin.ext (getElem_regsTo x r.val hk)
    have := loadRegs_reg_at (regsTo x) (nodup_regsTo x) a s r.val hk
    rwa [hr] at this
  · next h => exact loadRegs_reg_of_not_mem a _ s r (by simpa using h)

/-! ### Drawing -/

/-- A pixel after a toggle of one pixel. -/
@[simp] theorem pixel_togglePixel (g : Framebuffer) (x u : Fin 64) (y w : Fin 32) :
    pixel (togglePixel g x y) u w = (pixel g u w ^^ decide (u = x ∧ w = y)) := by
  unfold pixel togglePixel
  by_cases hx : u = x
  · subst hx
    by_cases hy : w = y
    · subst hy
      simp [pixel]
    · simp [hy, Fin.val_ne_of_ne (Ne.symm hy)]
  · simp [hx, Fin.val_ne_of_ne (Ne.symm hx)]

/-- Every pixel of the cleared grid is off. -/
@[simp] theorem pixel_clearGrid (x : Fin 64) (y : Fin 32) : pixel clearGrid x y = false := by
  simp [pixel, clearGrid]

/-- Two grids are equal when their pixels are. -/
theorem Framebuffer.ext_pixel {g h : Framebuffer} (e : ∀ x y, pixel g x y = pixel h x y) : g = h :=
  Vector.ext (fun i hi => Vector.ext (fun j hj => e ⟨i, hi⟩ ⟨j, hj⟩))

end Sys2Proof.Machine
end

