-- ==== Sys2Proof/Laws/Display.lean ====
section
/-! SUPPORT. What drawing does to every pixel and to the hit bit (spec/41_display.md R74, R75): a bit, a row, a sprite. -/

namespace Sys2Proof.Machine

/-- Bit `c` of row `r` of the sprite is 1 and lands on the pixel. -/
def BitLands (x0 y0 : Nat) (row : Byte) (r c : Nat) (u : Fin 64) (w : Fin 32) : Prop :=
  spriteBit row c = true ∧ u.val = (x0 + c) % 64 ∧ w.val = (y0 + r) % 32

/-- Some of the first `n` bits of row `r` lands on the pixel. -/
def RowLands (x0 y0 : Nat) (row : Byte) (r n : Nat) (u : Fin 64) (w : Fin 32) : Prop :=
  ∃ c, c < n ∧ BitLands x0 y0 row r c u w

/-- Some bit of the rows, the first of which is row `r`, lands on the pixel. -/
def RowsLand (x0 y0 : Nat) (rows : List Byte) (r : Nat) (u : Fin 64) (w : Fin 32) : Prop :=
  ∃ k, ∃ h : k < rows.length, RowLands x0 y0 rows[k] (r + k) 8 u w

theorem drawBit_pixel (x0 y0 : Nat) (row : Byte) (r : Nat) (acc : Framebuffer × Bool) (c : Nat) (u : Fin 64) (w : Fin 32) :
    (pixel (drawBit x0 y0 row r acc c).1 u w = true) ↔ ¬ (pixel acc.1 u w = true ↔ BitLands x0 y0 row r c u w) := by
  unfold drawBit BitLands
  by_cases hb : spriteBit row c = true
  · simp only [hb, if_true, pixel_togglePixel, Fin.ext_iff, Fin.val_ofNat, true_and]
    by_cases hp : pixel acc.1 u w = true <;> by_cases hl : u.val = (x0 + c) % 64 ∧ w.val = (y0 + r) % 32 <;> simp [hp, hl]
  · simp [hb]

theorem drawBit_hit (x0 y0 : Nat) (row : Byte) (r : Nat) (acc : Framebuffer × Bool) (c : Nat) :
    ((drawBit x0 y0 row r acc c).2 = true) ↔
      (acc.2 = true ∨ ∃ u w, BitLands x0 y0 row r c u w ∧ pixel acc.1 u w = true) := by
  unfold drawBit BitLands
  by_cases hb : spriteBit row c = true
  · simp only [hb, if_true, Bool.or_eq_true, true_and]
    constructor
    · rintro (h | h)
      · exact .inl h
      · exact .inr ⟨_, _, ⟨rfl, rfl⟩, h⟩
    · rintro (h | ⟨u, w, ⟨hu, hw⟩, h⟩)
      · exact .inl h
      · have eu : Fin.ofNat 64 (x0 + c) = u := Fin.ext hu.symm
        have ew : Fin.ofNat 32 (y0 + r) = w := Fin.ext hw.symm
        rw [eu, ew]
        exact .inr h
  · simp [hb]

/-- Two bits of one row never land on one pixel. -/
theorem BitLands.column_unique {x0 y0 r c c' : Nat} {row row' : Byte} {u : Fin 64} {w : Fin 32} (hc : c < 8) (hc' : c' < 8)
    (h : BitLands x0 y0 row r c u w) (h' : BitLands x0 y0 row' r c' u w) : c = c' := by
  have h1 := h.2.1
  have h2 := h'.2.1
  omega

/-- A partial row: the pixels it toggles and whether it hits. -/
theorem foldl_drawBit (x0 y0 : Nat) (row : Byte) (r : Nat) (acc : Framebuffer × Bool) (n : Nat) (hn : n ≤ 8) :
    (∀ u w, (pixel ((List.range n).foldl (drawBit x0 y0 row r) acc).1 u w = true) ↔
      ¬ (pixel acc.1 u w = true ↔ RowLands x0 y0 row r n u w)) ∧
    ((((List.range n).foldl (drawBit x0 y0 row r) acc).2 = true) ↔
      (acc.2 = true ∨ ∃ u w, RowLands x0 y0 row r n u w ∧ pixel acc.1 u w = true)) := by
  induction n with
  | zero => simp [RowLands]
  | succ n ih =>
    obtain ⟨ihp, ihh⟩ := ih (by omega)
    have hsplit : ∀ u w, RowLands x0 y0 row r (n + 1) u w ↔
        (RowLands x0 y0 row r n u w ∨ BitLands x0 y0 row r n u w) := by
      intro u w
      constructor
      · rintro ⟨c, hc, h⟩
        rcases Nat.lt_succ_iff_lt_or_eq.mp hc with hc | rfl
        · exact .inl ⟨c, hc, h⟩
        · exact .inr h
      · rintro (⟨c, hc, h⟩ | h)
        · exact ⟨c, by omega, h⟩
        · exact ⟨n, by omega, h⟩
    have hdisj : ∀ u w, ¬ (RowLands x0 y0 row r n u w ∧ BitLands x0 y0 row r n u w) := by
      rintro u w ⟨⟨c, hc, h⟩, h'⟩
      have := BitLands.column_unique (by omega) (by omega) h h'
      omega
    rw [List.range_succ, List.foldl_append, List.foldl_cons, List.foldl_nil]
    refine ⟨fun u w => ?_, ?_⟩
    · rw [drawBit_pixel, ihp, hsplit]
      have := hdisj u w
      tauto
    · rw [drawBit_hit, ihh]
      constructor
      · rintro ((h | ⟨u, w, h, hp⟩) | ⟨u, w, h, hp⟩)
        · exact .inl h
        · exact .inr ⟨u, w, (hsplit u w).mpr (.inl h), hp⟩
        · have hd := hdisj u w
          rw [ihp] at hp
          exact .inr ⟨u, w, (hsplit u w).mpr (.inr h), by tauto⟩
      · rintro (h | ⟨u, w, h, hp⟩)
        · exact .inl (.inl h)
        · rcases (hsplit u w).mp h with h | h
          · exact .inl (.inr ⟨u, w, h, hp⟩)
          · have hd := hdisj u w
            exact .inr ⟨u, w, h, by rw [ihp]; tauto⟩

/-- Bits of different rows of one sprite never land on one pixel. -/
theorem RowLands.row_unique {x0 y0 r r' n n' : Nat} {row row' : Byte} {u : Fin 64} {w : Fin 32}
    (hr : r < r' + 32) (hr' : r' < r + 32) (h : RowLands x0 y0 row r n u w) (h' : RowLands x0 y0 row' r' n' u w) : r = r' := by
  obtain ⟨c, -, -, -, h1⟩ := h
  obtain ⟨c', -, -, -, h2⟩ := h'
  omega

/-- A whole sprite of at most 32 rows: a pixel toggles exactly where a 1 bit lands, and there is a hit exactly when one of
those pixels was on. -/
theorem drawRows_spec (x0 y0 : Nat) (rows : List Byte) (r : Nat) (acc : Framebuffer × Bool) (hl : rows.length ≤ 32) :
    (∀ u w, (pixel (drawRows x0 y0 rows r acc).1 u w = true) ↔
      ¬ (pixel acc.1 u w = true ↔ RowsLand x0 y0 rows r u w)) ∧
    (((drawRows x0 y0 rows r acc).2 = true) ↔
      (acc.2 = true ∨ ∃ u w, RowsLand x0 y0 rows r u w ∧ pixel acc.1 u w = true)) := by
  induction rows generalizing r acc with
  | nil => simp [drawRows, RowsLand]
  | cons row rows ih =>
    rw [List.length_cons] at hl
    obtain ⟨hp, hh⟩ := foldl_drawBit x0 y0 row r acc 8 (Nat.le_refl 8)
    obtain ⟨ihp, ihh⟩ := ih (r + 1) (drawRow x0 y0 row r acc) (by omega)
    have hsplit : ∀ u w, RowsLand x0 y0 (row :: rows) r u w ↔
        (RowLands x0 y0 row r 8 u w ∨ RowsLand x0 y0 rows (r + 1) u w) := by
      intro u w
      constructor
      · rintro ⟨k, hk, h⟩
        cases k with
        | zero => exact .inl h
        | succ k => exact .inr ⟨k, by simpa using hk, by rw [Nat.add_right_comm]; exact h⟩
      · rintro (h | ⟨k, hk, h⟩)
        · exact ⟨0, by simp, h⟩
        · exact ⟨k + 1, by simpa using hk, by rw [Nat.add_right_comm] at h; exact h⟩
    have hdisj : ∀ u w, ¬ (RowLands x0 y0 row r 8 u w ∧ RowsLand x0 y0 rows (r + 1) u w) := by
      rintro u w ⟨h, k, hk, h'⟩
      have := RowLands.row_unique (by omega) (by omega) h h'
      omega
    rw [drawRows]
    refine ⟨fun u w => ?_, ?_⟩
    · rw [ihp, drawRow, hp, hsplit]
      have := hdisj u w
      tauto
    · rw [ihh, drawRow, hh]
      constructor
      · rintro ((h | ⟨u, w, h, hq⟩) | ⟨u, w, h, hq⟩)
        · exact .inl h
        · exact .inr ⟨u, w, (hsplit u w).mpr (.inl h), hq⟩
        · have hd := hdisj u w
          rw [hp] at hq
          exact .inr ⟨u, w, (hsplit u w).mpr (.inr h), by tauto⟩
      · rintro (h | ⟨u, w, h, hq⟩)
        · exact .inl (.inl h)
        · rcases (hsplit u w).mp h with h | h
          · exact .inl (.inr ⟨u, w, h, hq⟩)
          · have hd := hdisj u w
            exact .inr ⟨u, w, h, by rw [hp]; tauto⟩

/-- The rows of a sprite and their bytes. -/
theorem length_spriteRows (s : State) (n : Nibble) : (spriteRows s n).length = n.toNat := by
  simp [spriteRows]

theorem getElem_spriteRows (s : State) (n : Nibble) (k : Nat) (hk : k < (spriteRows s n).length) :
    (spriteRows s n)[k] = s.readByte (s.i + BitVec.ofNat 16 k) := by
  simp [spriteRows]

end Sys2Proof.Machine
end

