-- ==== Sys2Proof/Laws/PerInstr.lean ====
section
/-! SUPPORT. For each instruction: the word the encoder gives it lies in its own row of spec/opcode_table.json, the row's
fixed bits being the row's pattern. -/

namespace Sys2Proof.Laws.EncodeFitsRow

/-- The word of the instruction is in the row of the table that carries the instruction's mnemonic. -/
def Statement (i : Instr) : Prop :=
  ∃ r ∈ opcodeRows, r.mnemonic = rowMnemonic i ∧ r.matches (encode i) = true

/-- The row of an instruction, with its fixed bits checked, settles its statement. -/
theorem of_row {i : Instr} (r : OpcodeRow) (hr : r ∈ opcodeRows) (hm : r.mnemonic = rowMnemonic i)
    (hw : encode i &&& r.mask = r.pattern) : Statement i :=
  ⟨r, hr, hm, beq_iff_eq.mpr hw⟩

theorem cls : Statement .cls :=
  of_row ⟨"CLS", 0x00E0, 0xFFFF⟩ (by decide) rfl
    (by decide)

theorem ret : Statement .ret :=
  of_row ⟨"RET", 0x00EE, 0xFFFF⟩ (by decide) rfl
    (by decide)

theorem jp (nnn : Addr12) : Statement (.jp nnn) :=
  of_row ⟨"JP_addr", 0x1000, 0xF000⟩ (by decide) rfl
    (encFA_masked 0x1 nnn)

theorem call (nnn : Addr12) : Statement (.call nnn) :=
  of_row ⟨"CALL_addr", 0x2000, 0xF000⟩ (by decide) rfl
    (encFA_masked 0x2 nnn)

theorem seByte (x : Reg) (nn : Byte) : Statement (.seByte x nn) :=
  of_row ⟨"SE_Vx__byte", 0x3000, 0xF000⟩ (by decide) rfl
    (encFI_masked 0x3 x nn)

theorem sneByte (x : Reg) (nn : Byte) : Statement (.sneByte x nn) :=
  of_row ⟨"SNE_Vx__byte", 0x4000, 0xF000⟩ (by decide) rfl
    (encFI_masked 0x4 x nn)

theorem seReg (x : Reg) (y : Reg) : Statement (.seReg x y) :=
  of_row ⟨"SE_Vx__Vy", 0x5000, 0xF00F⟩ (by decide) rfl
    (encFR_masked 0x5 x y 0x0)

theorem ldByte (x : Reg) (nn : Byte) : Statement (.ldByte x nn) :=
  of_row ⟨"LD_Vx__byte", 0x6000, 0xF000⟩ (by decide) rfl
    (encFI_masked 0x6 x nn)

theorem addByte (x : Reg) (nn : Byte) : Statement (.addByte x nn) :=
  of_row ⟨"ADD_Vx__byte", 0x7000, 0xF000⟩ (by decide) rfl
    (encFI_masked 0x7 x nn)

theorem ldReg (x : Reg) (y : Reg) : Statement (.ldReg x y) :=
  of_row ⟨"LD_Vx__Vy", 0x8000, 0xF00F⟩ (by decide) rfl
    (encFR_masked 0x8 x y 0x0)

theorem orReg (x : Reg) (y : Reg) : Statement (.orReg x y) :=
  of_row ⟨"OR_Vx__Vy", 0x8001, 0xF00F⟩ (by decide) rfl
    (encFR_masked 0x8 x y 0x1)

theorem andReg (x : Reg) (y : Reg) : Statement (.andReg x y) :=
  of_row ⟨"AND_Vx__Vy", 0x8002, 0xF00F⟩ (by decide) rfl
    (encFR_masked 0x8 x y 0x2)

theorem xorReg (x : Reg) (y : Reg) : Statement (.xorReg x y) :=
  of_row ⟨"XOR_Vx__Vy", 0x8003, 0xF00F⟩ (by decide) rfl
    (encFR_masked 0x8 x y 0x3)

theorem addReg (x : Reg) (y : Reg) : Statement (.addReg x y) :=
  of_row ⟨"ADD_Vx__Vy", 0x8004, 0xF00F⟩ (by decide) rfl
    (encFR_masked 0x8 x y 0x4)

theorem subReg (x : Reg) (y : Reg) : Statement (.subReg x y) :=
  of_row ⟨"SUB_Vx__Vy", 0x8005, 0xF00F⟩ (by decide) rfl
    (encFR_masked 0x8 x y 0x5)

theorem shr (x : Reg) (y : Reg) : Statement (.shr x y) :=
  of_row ⟨"SHR_Vx____Vy", 0x8006, 0xF00F⟩ (by decide) rfl
    (encFR_masked 0x8 x y 0x6)

theorem subn (x : Reg) (y : Reg) : Statement (.subn x y) :=
  of_row ⟨"SUBN_Vx__Vy", 0x8007, 0xF00F⟩ (by decide) rfl
    (encFR_masked 0x8 x y 0x7)

theorem shl (x : Reg) (y : Reg) : Statement (.shl x y) :=
  of_row ⟨"SHL_Vx____Vy", 0x800E, 0xF00F⟩ (by decide) rfl
    (encFR_masked 0x8 x y 0xE)

theorem sneReg (x : Reg) (y : Reg) : Statement (.sneReg x y) :=
  of_row ⟨"SNE_Vx__Vy", 0x9000, 0xF00F⟩ (by decide) rfl
    (encFR_masked 0x9 x y 0x0)

theorem ldI (nnn : Addr12) : Statement (.ldI nnn) :=
  of_row ⟨"LD_I__addr", 0xA000, 0xF000⟩ (by decide) rfl
    (encFA_masked 0xA nnn)

theorem jpV0 (nnn : Addr12) : Statement (.jpV0 nnn) :=
  of_row ⟨"JP_V0__addr", 0xB000, 0xF000⟩ (by decide) rfl
    (encFA_masked 0xB nnn)

theorem rnd (x : Reg) (nn : Byte) : Statement (.rnd x nn) :=
  of_row ⟨"RND_Vx__byte", 0xC000, 0xF000⟩ (by decide) rfl
    (encFI_masked 0xC x nn)

theorem drw (x : Reg) (y : Reg) (n : Nibble) : Statement (.drw x y n) :=
  of_row ⟨"DRW_Vx__Vy__nibble", 0xD000, 0xF000⟩ (by decide) rfl
    (encFD_masked 0xD x y n)

theorem skp (x : Reg) : Statement (.skp x) :=
  of_row ⟨"SKP_Vx", 0xE09E, 0xF0FF⟩ (by decide) rfl
    (encFX_masked 0xE x 0x9E)

theorem sknp (x : Reg) : Statement (.sknp x) :=
  of_row ⟨"SKNP_Vx", 0xE0A1, 0xF0FF⟩ (by decide) rfl
    (encFX_masked 0xE x 0xA1)

theorem ldVxDT (x : Reg) : Statement (.ldVxDT x) :=
  of_row ⟨"LD_Vx__DT", 0xF007, 0xF0FF⟩ (by decide) rfl
    (encFX_masked 0xF x 0x07)

theorem ldVxK (x : Reg) : Statement (.ldVxK x) :=
  of_row ⟨"LD_Vx__K", 0xF00A, 0xF0FF⟩ (by decide) rfl
    (encFX_masked 0xF x 0x0A)

theorem ldDTVx (x : Reg) : Statement (.ldDTVx x) :=
  of_row ⟨"LD_DT__Vx", 0xF015, 0xF0FF⟩ (by decide) rfl
    (encFX_masked 0xF x 0x15)

theorem ldSTVx (x : Reg) : Statement (.ldSTVx x) :=
  of_row ⟨"LD_ST__Vx", 0xF018, 0xF0FF⟩ (by decide) rfl
    (encFX_masked 0xF x 0x18)

theorem addIVx (x : Reg) : Statement (.addIVx x) :=
  of_row ⟨"ADD_I__Vx", 0xF01E, 0xF0FF⟩ (by decide) rfl
    (encFX_masked 0xF x 0x1E)

theorem ldFVx (x : Reg) : Statement (.ldFVx x) :=
  of_row ⟨"LD_F__Vx", 0xF029, 0xF0FF⟩ (by decide) rfl
    (encFX_masked 0xF x 0x29)

theorem ldBVx (x : Reg) : Statement (.ldBVx x) :=
  of_row ⟨"LD_B__Vx", 0xF033, 0xF0FF⟩ (by decide) rfl
    (encFX_masked 0xF x 0x33)

theorem ldMemVx (x : Reg) : Statement (.ldMemVx x) :=
  of_row ⟨"LD__I___Vx", 0xF055, 0xF0FF⟩ (by decide) rfl
    (encFX_masked 0xF x 0x55)

theorem ldVxMem (x : Reg) : Statement (.ldVxMem x) :=
  of_row ⟨"LD_Vx___I", 0xF065, 0xF0FF⟩ (by decide) rfl
    (encFX_masked 0xF x 0x65)

end Sys2Proof.Laws.EncodeFitsRow
end

