-- ==== Sys2Proof/Laws/Step.lean ====
section
/-! SUPPORT. What one step can do. -/

namespace Sys2Proof.Machine

/-- Outside `Running` a step changes nothing. -/
theorem engineStepIn_of_not_running (d : Dialect) (f : Instr → State → Result) (s : State) (h : s.run ≠ .running) :
    engineStepIn d f s = .next s := by
  unfold engineStepIn
  cases hr : s.run with
  | running => exact absurd hr h
  | awaitingKey x => rfl
  | halted e => rfl

/-- In `Running`, a word that decodes runs its instruction on the state with `pc` advanced. -/
theorem engineStepIn_instr (d : Dialect) (f : Instr → State → Result) (s : State) (i : Instr) (h : s.run = .running)
    (hd : decodeWord d.strict59 (s.fetch16 s.pc) = .instr i) : engineStepIn d f s = f i (s.setPc (s.pc + 2)) := by
  simp only [engineStepIn, h, hd]

/-- In `Running`, an invalid word is reported on the state with `pc` advanced. -/
theorem engineStepIn_invalid (d : Dialect) (f : Instr → State → Result) (s : State) (why : Invalid) (h : s.run = .running)
    (hd : decodeWord d.strict59 (s.fetch16 s.pc) = .invalid why) :
    engineStepIn d f s = .next ((s.setPc (s.pc + 2)).raiseInvalid d (s.fetch16 s.pc) s.pc) := by
  simp only [engineStepIn, h, hd]

/-- The three things a step can do. -/
theorem engineStepIn_cases (d : Dialect) (f : Instr → State → Result) (s : State) :
    (s.run ≠ .running ∧ engineStepIn d f s = .next s) ∨
    (s.run = .running ∧ ∃ i, decodeWord d.strict59 (s.fetch16 s.pc) = .instr i ∧
      engineStepIn d f s = f i (s.setPc (s.pc + 2))) ∨
    (s.run = .running ∧ ∃ why, decodeWord d.strict59 (s.fetch16 s.pc) = .invalid why ∧
      engineStepIn d f s = .next ((s.setPc (s.pc + 2)).raiseInvalid d (s.fetch16 s.pc) s.pc)) := by
  by_cases h : s.run = .running
  · cases hd : decodeWord d.strict59 (s.fetch16 s.pc) with
    | instr i => exact .inr (.inl ⟨h, i, rfl, engineStepIn_instr d f s i h hd⟩)
    | invalid why => exact .inr (.inr ⟨h, why, rfl, engineStepIn_invalid d f s why h hd⟩)
  · exact .inl ⟨h, engineStepIn_of_not_running d f s h⟩

/-- `exec` is the execute phase of the default dialect. -/
theorem exec_eq_execIn (i : Instr) (s : State) : exec i s = execIn dialect i s := by
  cases i <;> rfl

/-- `step` is the step of the default dialect. -/
theorem step_eq_stepIn (s : State) : step s = stepIn dialect s :=
  congrArg (fun f => engineStepIn dialect f s) (funext fun i => funext fun t => exec_eq_execIn i t)

/-- A call of the surface is that of the default dialect. -/
theorem perform_eq_performIn (c : HostCall) (s : State) : perform c s = performIn dialect c s := by
  cases c <;> simp [perform, performIn, performWith, step_eq_stepIn]

/-- The report of an invalid word changes the run state or not, and adds one event. -/
theorem State.raiseInvalid_eq (s : State) (d : Dialect) (w a : Word) :
    s.raiseInvalid d w a =
      (s.setRun (if d.onInvalid = .halt then .halted .invalidInstruction else s.run)).emit
        (.raised (.invalidInstruction w a)) := by
  unfold State.raiseInvalid
  cases d.onInvalid <;> rfl

end Sys2Proof.Machine
end

