-- ==== Sys2Proof/Laws/Surface.lean ====
section
/-! SUPPORT. What a step returns to its caller. -/

namespace Sys2Proof.Machine

/-- An operation whose trace has grown by an error reported that error. -/
theorem reportedError_of_raised (s t : State) (e : Error) (h : t.trace = .raised e :: s.trace) :
    reportedError s t = some e := by
  simp [reportedError, h]

/-- An operation that left the trace alone reported nothing. -/
theorem reportedError_of_same (s t : State) (h : t.trace = s.trace) : reportedError s t = none := by
  unfold reportedError
  rw [h]
  split
  · next e rest hr =>
    rw [if_neg]
    intro he
    have := congrArg List.length hr
    rw [he, List.length_cons] at this
    omega
  · rfl

/-- A step in `Running` that reported an error returns it. -/
theorem stepResultIn_of_error (d : Dialect) (s t : State) (e : Error) (h : s.run = .running) (ht : stepIn d s = .next t)
    (he : reportedError s t = some e) : stepResultIn d s = some (.error e) := by
  simp only [stepResultIn, h, ht, he]

/-- A step in `Running` that reported nothing returns by the run state it reached. -/
theorem stepResultIn_of_none (d : Dialect) (s t : State) (h : s.run = .running) (ht : stepIn d s = .next t)
    (he : reportedError s t = none) : stepResultIn d s = if t.run = .running then some .ok else some .awaitingKey := by
  simp only [stepResultIn, h, ht, he]

end Sys2Proof.Machine
end

