-- ==== Sys2Proof/Tests/Slice0.lean ====
section
/-! SUPPORT. Tests and witnesses. Expected values are from spec/95_test_vectors.md (each test names its vector) or worked by
hand from the rule named; no value is this model's output. A witness shows that the hypotheses of a statement are met. -/

open Sys2Proof Sys2Proof.Machine

namespace Sys2Proof.Tests

/-! ### Small states -/

/-- The reset state with some registers set. -/
def boot (l : List (Reg × Byte)) : State := l.foldl (fun t p => t.setReg p.1 p.2) State.reset

/-- A state with some bytes of memory set. -/
def poke (l : List (Nat × Byte)) (s : State) : State := l.foldl (fun t p => t.pokeByte p.1 p.2) s

/-- A state with some pixels on. -/
def light (l : List (Fin 64 × Fin 32)) (s : State) : State := l.foldl (fun t p => t.setFb (togglePixel t.fb p.1 p.2)) s

/-- A look at the state after the one step, in a dialect, that runs the word. -/
def afterIn (d : Dialect) (w : Nat) (s : State) {α : Type} (look : State → α) : Option α :=
  (nextOf (stepIn d (s.withFetchWord 16 w))).map look

/-- The same in the default dialect. -/
def after (w : Nat) (s : State) {α : Type} (look : State → α) : Option α :=
  (nextOf (step (s.withFetchWord 16 w))).map look

/-! ### Well-formed words (R60): an ill-formed word for each line of the list, refused -/

theorem test_wf_zeroClass : wordWellFormed true 0x0123 = false ∧ wordWellFormed true 0x00E1 = false ∧
    wordWellFormed true 0x0000 = false := by decide
theorem test_wf_compareNibble : wordWellFormed true 0x5121 = false ∧ wordWellFormed true 0x912F = false := by decide
theorem test_wf_compareNibble_lax : wordWellFormed false 0x5121 = true ∧ wordWellFormed false 0x912F = true := by decide
theorem test_wf_aluFunction : wordWellFormed true 0x8008 = false ∧ wordWellFormed true 0x801F = false ∧
    wordWellFormed true 0x800D = false := by decide
theorem test_wf_keyFunction : wordWellFormed true 0xE0FF = false ∧ wordWellFormed true 0xE09F = false := by decide
theorem test_wf_miscFunction : wordWellFormed true 0xF000 = false ∧ wordWellFormed true 0xF0FF = false ∧
    wordWellFormed true 0xF066 = false := by decide
theorem test_wf_accepts : wordWellFormed true 0x00E0 = true ∧ wordWellFormed true 0x00EE = true ∧
    wordWellFormed true 0x5120 = true ∧ wordWellFormed true 0x800E = true ∧ wordWellFormed true 0xE0A1 = true ∧
    wordWellFormed true 0xF065 = true ∧ wordWellFormed true 0xDFFF = true := by decide
theorem test_decode_reasons : decodeWord true 0x0123 = .invalid .zeroClass ∧ decodeWord true 0x912F = .invalid .compareNibble ∧
    decodeWord true 0x8008 = .invalid .aluFunction ∧ decodeWord true 0xE0FF = .invalid .keyFunction ∧
    decodeWord true 0xF0FF = .invalid .miscFunction := by decide
theorem test_decode_truncated : decodeBytes true [0x60] = (.invalid .truncated, [0x60]) ∧
    decodeBytes true [] = (.invalid .truncated, []) := by decide
theorem test_decode_rest : decodeBytes true [0x60, 0x0A, 0x70] = (.instr (.ldByte 0 0x0A), [0x70]) := by decide

/-! ### Decoding: a word of each row, written out from the encodings of R52 and R55 to R59 -/

theorem test_decode_cls : decodeTableWord 16 0x00E0 = some (.cls) := by decide
theorem test_decode_ret : decodeTableWord 16 0x00EE = some (.ret) := by decide
theorem test_decode_jp : decodeTableWord 16 0x1ABC = some (.jp 0xABC) := by decide
theorem test_decode_call : decodeTableWord 16 0x2345 = some (.call 0x345) := by decide
theorem test_decode_seByte : decodeTableWord 16 0x3342 = some (.seByte 3 0x42) := by decide
theorem test_decode_sneByte : decodeTableWord 16 0x4BFE = some (.sneByte 11 0xFE) := by decide
theorem test_decode_seReg : decodeTableWord 16 0x5450 = some (.seReg 4 5) := by decide
theorem test_decode_ldByte : decodeTableWord 16 0x6A5C = some (.ldByte 10 0x5C) := by decide
theorem test_decode_addByte : decodeTableWord 16 0x7F01 = some (.addByte 15 0x01) := by decide
theorem test_decode_ldReg : decodeTableWord 16 0x8120 = some (.ldReg 1 2) := by decide
theorem test_decode_orReg : decodeTableWord 16 0x8341 = some (.orReg 3 4) := by decide
theorem test_decode_andReg : decodeTableWord 16 0x8562 = some (.andReg 5 6) := by decide
theorem test_decode_xorReg : decodeTableWord 16 0x8783 = some (.xorReg 7 8) := by decide
theorem test_decode_addReg : decodeTableWord 16 0x89A4 = some (.addReg 9 10) := by decide
theorem test_decode_subReg : decodeTableWord 16 0x8BC5 = some (.subReg 11 12) := by decide
theorem test_decode_shr : decodeTableWord 16 0x8DE6 = some (.shr 13 14) := by decide
theorem test_decode_subn : decodeTableWord 16 0x8F07 = some (.subn 15 0) := by decide
theorem test_decode_shl : decodeTableWord 16 0x812E = some (.shl 1 2) := by decide
theorem test_decode_sneReg : decodeTableWord 16 0x9CD0 = some (.sneReg 12 13) := by decide
theorem test_decode_ldI : decodeTableWord 16 0xA123 = some (.ldI 0x123) := by decide
theorem test_decode_jpV0 : decodeTableWord 16 0xBFFF = some (.jpV0 0xFFF) := by decide
theorem test_decode_rnd : decodeTableWord 16 0xC30F = some (.rnd 3 0x0F) := by decide
theorem test_decode_drw : decodeTableWord 16 0xD125 = some (.drw 1 2 5) := by decide
theorem test_decode_skp : decodeTableWord 16 0xE19E = some (.skp 1) := by decide
theorem test_decode_sknp : decodeTableWord 16 0xEFA1 = some (.sknp 15) := by decide
theorem test_decode_ldVxDT : decodeTableWord 16 0xF307 = some (.ldVxDT 3) := by decide
theorem test_decode_ldVxK : decodeTableWord 16 0xF50A = some (.ldVxK 5) := by decide
theorem test_decode_ldDTVx : decodeTableWord 16 0xF315 = some (.ldDTVx 3) := by decide
theorem test_decode_ldSTVx : decodeTableWord 16 0xF418 = some (.ldSTVx 4) := by decide
theorem test_decode_addIVx : decodeTableWord 16 0xF21E = some (.addIVx 2) := by decide
theorem test_decode_ldFVx : decodeTableWord 16 0xFA29 = some (.ldFVx 10) := by decide
theorem test_decode_ldBVx : decodeTableWord 16 0xF033 = some (.ldBVx 0) := by decide
theorem test_decode_ldMemVx : decodeTableWord 16 0xFF55 = some (.ldMemVx 15) := by decide
theorem test_decode_ldVxMem : decodeTableWord 16 0xF265 = some (.ldVxMem 2) := by decide

/-- No word is in two rows of the opcode table. -/
theorem test_rows_disjoint : opcodeRows.Pairwise (fun r q => (r.mask &&& q.mask) &&& (r.pattern ^^^ q.pattern) ≠ 0) := by decide

/-! ### One step per instruction -/

/-- V-D1: both pixels go off, VF stays. -/
theorem test_cls : after 0x00E0 (light [(0, 0), (63, 31)] (boot [(15, 7)]))
    (fun t => (pixel t.fb 0 0, pixel t.fb 63 31, t.reg 15, t.pc)) = some (false, false, 7, 0x202) := by decide
/-- V-F6. -/
theorem test_ret : after 0x00EE (((boot []).setSp 2).setStack ((Vector.replicate 16 0).set 1 0x456)) (fun t => (t.sp, t.pc)) =
    some (1, 0x456) := by decide
/-- V-F7. -/
theorem test_ret_underflow : after 0x00EE (boot []) (fun t => (t.pc, t.sp, t.run, t.trace)) =
    some (0x202, 0, .halted .stackUnderflow, [.raised (.stackUnderflow 0x200)]) := by decide
/-- V-F1. -/
theorem test_jp : after 0x1FFF (boot []) State.pc = some 0xFFF := by decide
/-- E5b: an odd target is not realigned. -/
theorem test_jp_odd : after 0x1345 (boot []) State.pc = some 0x345 := by decide
/-- V-F4: the last free entry. -/
theorem test_call : after 0x2400 (((boot []).setPc 0x300).setSp 15) (fun t => (t.stack[15], t.sp, t.pc)) =
    some (0x302, 16, 0x400) := by decide
/-- V-F5. -/
theorem test_call_overflow : after 0x2400 (((boot []).setPc 0x300).setSp 16) (fun t => (t.pc, t.sp, t.run, t.trace)) =
    some (0x302, 16, .halted .stackOverflow, [.raised (.stackOverflow 0x300)]) := by decide
/-- V-F8. -/
theorem test_seByte_taken : after 0x3342 (boot [(3, 0x42)]) State.pc = some 0x204 := by decide
/-- V-F9. -/
theorem test_seByte_not : after 0x3342 (boot [(3, 0x41)]) State.pc = some 0x202 := by decide
/-- V-F10. -/
theorem test_sneByte_taken : after 0x4342 (boot [(3, 0x41)]) State.pc = some 0x204 := by decide
/-- V-F11. -/
theorem test_sneByte_not : after 0x4342 (boot [(3, 0x42)]) State.pc = some 0x202 := by decide
/-- V-F12. -/
theorem test_seReg_taken : after 0x5450 (boot [(4, 9), (5, 9)]) State.pc = some 0x204 := by decide
/-- V-F13. -/
theorem test_seReg_not : after 0x5450 (boot [(4, 9), (5, 8)]) State.pc = some 0x202 := by decide
/-- V-A1. -/
theorem test_ldByte : after 0x6A5C (boot []) (fun t => (t.reg 10, t.pc)) = some (0x5C, 0x202) := by decide
/-- V-A2. -/
theorem test_ldByte_vf : after 0x6F00 (boot [(15, 1)]) (fun t => t.reg 15) = some 0 := by decide
/-- V-A3. -/
theorem test_addByte_no_flag : after 0x7001 (boot [(0, 0xFF), (15, 7)]) (fun t => (t.reg 0, t.reg 15)) = some (0, 7) := by decide
/-- V-A4. -/
theorem test_addByte_vf : after 0x7F01 (boot [(15, 0xFF)]) (fun t => t.reg 15) = some 0 := by decide
/-- V-A5. -/
theorem test_ldReg : after 0x8010 (boot [(1, 0x9A)]) (fun t => (t.reg 0, t.reg 1)) = some (0x9A, 0x9A) := by decide
/-- V-A6. -/
theorem test_orReg : after 0x8011 (boot [(0, 0xF0), (1, 0x0F), (15, 0x55)]) (fun t => (t.reg 0, t.reg 15)) = some (0xFF, 0x55) := by decide
/-- V-A7. -/
theorem test_orReg_resets : afterIn { dialect with logicResetsVF := true } 0x8011 (boot [(0, 0xF0), (1, 0x0F), (15, 0x55)])
    (fun t => (t.reg 0, t.reg 15)) = some (0xFF, 0) := by decide
/-- V-A8. -/
theorem test_andReg : after 0x8012 (boot [(0, 0xF0), (1, 0x3C), (15, 0x55)]) (fun t => (t.reg 0, t.reg 15)) = some (0x30, 0x55) := by decide
/-- V-A9. -/
theorem test_xorReg : after 0x8013 (boot [(0, 0xF0), (1, 0x3C), (15, 0x55)]) (fun t => (t.reg 0, t.reg 15)) = some (0xCC, 0x55) := by decide
/-- V-A10. -/
theorem test_xorReg_self : after 0x8003 (boot [(0, 0xA5)]) (fun t => t.reg 0) = some 0 := by decide
/-- E1a. -/
theorem test_addReg : after 0x8014 (boot [(0, 0xC8), (1, 0x64)]) (fun t => (t.reg 0, t.reg 15)) = some (0x2C, 1) := by decide
/-- V-A13: the flag overwrites the sum. -/
theorem test_addReg_vf : after 0x8F14 (boot [(15, 0x10), (1, 0xF5)]) (fun t => t.reg 15) = some 1 := by decide
/-- E2a. -/
theorem test_subReg : after 0x8205 (boot [(2, 0x64), (0, 0x2C)]) (fun t => (t.reg 2, t.reg 15)) = some (0x38, 1) := by decide
/-- E2b. -/
theorem test_subReg_borrow : after 0x8015 (boot [(0, 0), (1, 1)]) (fun t => (t.reg 0, t.reg 15)) = some (0xFF, 0) := by decide
/-- V-A21: Y is ignored. -/
theorem test_shr : after 0x8126 (boot [(1, 0x80), (2, 3)]) (fun t => (t.reg 1, t.reg 15, t.reg 2)) = some (0x40, 0, 3) := by decide
/-- V-A22. -/
theorem test_shr_vy : afterIn { dialect with shiftSource := .vy } 0x8126 (boot [(1, 0x80), (2, 3)])
    (fun t => (t.reg 1, t.reg 15, t.reg 2)) = some (1, 1, 3) := by decide
/-- E2d. -/
theorem test_subn : after 0x8347 (boot [(3, 0x10), (4, 5)]) (fun t => (t.reg 3, t.reg 15)) = some (0xF5, 0) := by decide
/-- V-A19. -/
theorem test_subn_equal : after 0x8017 (boot [(0, 0x22), (1, 0x22)]) (fun t => (t.reg 0, t.reg 15)) = some (0, 1) := by decide
/-- V-A24. -/
theorem test_shl : after 0x812E (boot [(1, 0x7F), (2, 3)]) (fun t => (t.reg 1, t.reg 15)) = some (0xFE, 0) := by decide
/-- V-A27. -/
theorem test_shl_vf : after 0x8FFE (boot [(15, 0x81)]) (fun t => t.reg 15) = some 1 := by decide
/-- V-F15. -/
theorem test_sneReg_taken : after 0x9450 (boot [(4, 9), (5, 8)]) State.pc = some 0x204 := by decide
/-- V-F16. -/
theorem test_sneReg_self : after 0x9440 (boot [(4, 9)]) State.pc = some 0x202 := by decide
/-- V-M1. -/
theorem test_ldI : after 0xA123 (boot []) State.i = some 0x123 := by decide
/-- V-F17. -/
theorem test_jpV0 : after 0xB300 (boot [(0, 0x10)]) State.pc = some 0x310 := by decide
/-- V-F18. -/
theorem test_jpV0_beyond : after 0xBFFF (boot [(0, 0xFF)]) State.pc = some 0x10FE := by decide
/-- V-A30: 0 for every draw. -/
theorem test_rnd_masked_off : after 0xC300 (boot [(3, 0x55)]) (fun t => (t.reg 3, t.draws)) = some (0, 1) := by
  have h : after 0xC300 (boot [(3, 0x55)]) (fun t => (t.reg 3, t.draws)) = some (Config.draw 0 &&& 0, 1) := rfl
  rw [h]
  exact congrArg some (congrArg (·, 1) BitVec.and_zero)
/-- V-A29, V-A31: the register holds whatever was drawn. -/
theorem test_rnd_free : after 0xC3FF (boot []) (fun t => t.reg 3) = some (Config.draw 0 &&& 0xFF) := rfl
/-- V-D4: over the right edge. -/
theorem test_drw_wraps : after 0xD011 (poke [(0x300, 0xC0)] ((boot [(0, 0x3F)]).setI 0x300))
    (fun t => (pixel t.fb 63 0, pixel t.fb 0 0, pixel t.fb 1 0, t.reg 15)) = some (true, true, false, 0) := by decide
/-- V-D7. -/
theorem test_drw_collides : after 0xD011 (light [(1, 0)] (poke [(0x300, 0xC0)] ((boot []).setI 0x300)))
    (fun t => (pixel t.fb 0 0, pixel t.fb 1 0, t.reg 15)) = some (true, false, 1) := by decide
/-- V-K5: the low nibble names the key. -/
theorem test_skp : after 0xE19E ((boot [(1, 0x13)]).setKeyAt 3 true) State.pc = some 0x204 := by decide
/-- V-K6. -/
theorem test_skp_fault : afterIn { dialect with keyIndexMode := .fault } 0xE19E ((boot [(1, 0x13)]).setKeyAt 3 true)
    (fun t => (t.pc, t.run, t.trace)) =
    some (0x202, .halted .keyRegisterOutOfRange, [.raised (.keyRegisterOutOfRange 0x13)]) := by decide
/-- V-K3. -/
theorem test_sknp_pressed : after 0xE1A1 ((boot [(1, 3)]).setKeyAt 3 true) State.pc = some 0x202 := by decide
/-- V-K4. -/
theorem test_sknp_not : after 0xE1A1 (boot [(1, 3)]) State.pc = some 0x204 := by decide
/-- V-T1. -/
theorem test_ldVxDT : after 0xF307 ((boot []).setDt 0x2A) (fun t => t.reg 3) = some 0x2A := by decide
/-- V-K7. -/
theorem test_ldVxK : after 0xF50A (boot [(5, 0x77)]) (fun t => (t.pc, t.run, t.reg 5)) = some (0x202, .awaitingKey 5, 0x77) := by decide
/-- V-T2. -/
theorem test_ldDTVx : after 0xF315 (boot [(3, 0x3C)]) State.dt = some 0x3C := by decide
/-- V-T4: a write of 0 does not beep. -/
theorem test_ldSTVx : after 0xF318 ((boot []).setSt 1) (fun t => (t.st, t.trace)) = some (0, []) := by decide
/-- V-M2. -/
theorem test_addIVx : after 0xF21E ((boot [(2, 3), (15, 9)]).setI 0xFFE) (fun t => (t.i, t.reg 15)) = some (0x1001, 9) := by decide
/-- V-M3. -/
theorem test_addIVx_sets : afterIn { dialect with addISetsVF := true } 0xF21E ((boot [(2, 3), (15, 9)]).setI 0xFFE)
    (fun t => (t.i, t.reg 15)) = some (0x1001, 1) := by decide
/-- V-M8. -/
theorem test_ldFVx : after 0xF029 (boot [(0, 0x0A)]) State.i = some 0x32 := by decide
/-- V-M9. -/
theorem test_ldFVx_nibble : after 0xF029 (boot [(0, 0xFF)]) State.i = some 0x4B := by decide
/-- V-M10. -/
theorem test_ldBVx : after 0xF033 ((boot [(0, 0xFE)]).setI 0x300)
    (fun t => (t.readByte 0x300, t.readByte 0x301, t.readByte 0x302, t.i)) = some (2, 5, 4, 0x300) := by decide
/-- V-M17. -/
theorem test_ldBVx_fault : afterIn { dialect with reservedWrite := .fault } 0xF033 (((boot [(0, 0x7B)]).setI 0x1FF).setPc 0x300)
    (fun t => (t.readByte 0x1FF, t.readByte 0x200, t.run, t.trace)) =
    some (0, 0, .halted .reservedWrite, [.raised (.reservedWrite 0x1FF)]) := by decide
/-- V-M20: the third byte wraps into the reserved region and is dropped. -/
theorem test_ldMemVx : after 0xF255 ((boot [(0, 0xAA), (1, 0xBB), (2, 0xCC)]).setI 0xFFE)
    (fun t => (t.readByte 0xFFE, t.readByte 0xFFF, t.readByte 0x000, t.i)) = some (0xAA, 0xBB, 0xF0, 0xFFE) := by decide
/-- V-M21. -/
theorem test_ldMemVx_increments : afterIn { dialect with memOpsIncrementI := true } 0xF055 ((boot [(0, 0x11)]).setI 0x400)
    (fun t => (t.readByte 0x400, t.i)) = some (0x11, 0x401) := by decide
/-- V-M24: glyph 0 read back. -/
theorem test_ldVxMem : after 0xF465 (boot [(5, 0x33)])
    (fun t => (t.reg 0, t.reg 1, t.reg 4, t.reg 5, t.i)) = some (0xF0, 0x90, 0xF0, 0x33, 0) := by decide
/-- V-M25. -/
theorem test_ldVxMem_increments : afterIn { dialect with memOpsIncrementI := true } 0xF265
    (poke [(0x300, 2), (0x301, 5), (0x302, 4)] ((boot []).setI 0x300)) (fun t => (t.reg 0, t.reg 1, t.reg 2, t.i)) =
    some (2, 5, 4, 0x303) := by decide

/-! ### The engine and the host surface -/

/-- V-EN1. -/
theorem test_invalid_word : (nextOf (step State.reset)).map (fun t => (t.pc, t.run, t.trace)) =
    some (0x202, .halted .invalidInstruction, [.raised (.invalidInstruction 0x0000 0x200)]) := by decide
/-- V-EN2. -/
theorem test_invalid_skip : (nextOf (stepIn { dialect with onInvalid := .skip } State.reset)).map (fun t => (t.pc, t.run)) = some (0x202, .running) := by decide
/-- V-EN6. -/
theorem test_strict_nibble_off : afterIn { dialect with strict59 := false } 0x5121 (boot [(1, 7), (2, 7)]) State.pc = some 0x204 := by decide
/-- V-EN8. -/
theorem test_fetch_wraps : (nextOf (step (poke [(0xFFF, 0x61)] ((boot []).setPc 0xFFF)))).map (fun t => (t.reg 1, t.pc)) =
    some (0xF0, 0x1001) := by decide
/-- V-EN9. -/
theorem test_fetch_odd : after 0x6233 ((boot []).setPc 0x201) (fun t => (t.reg 2, t.pc)) = some (0x33, 0x203) := by decide
/-- V-EN10. -/
theorem test_pc_wraps : after 0x6301 ((boot []).setPc 0xFFFE) (fun t => (t.reg 3, t.pc)) = some (1, 0) := by decide
/-- V-F19. -/
theorem test_skip_wraps : after 0x3101 ((boot [(1, 1)]).setPc 0xFFFE) State.pc = some 2 := by decide
/-- R63, R68, R71. -/
theorem test_step_results : stepResult State.reset = some (.error (.invalidInstruction 0 0x200)) ∧
    stepResult (State.reset.withFetchWord 16 0x600A) = some .ok ∧
    stepResult (State.reset.withFetchWord 16 0xF50A) = some .awaitingKey ∧
    stepResult (State.reset.withFetchWord 16 0x00EE) = some (.error (.stackUnderflow 0x200)) := by decide
/-- R68, R70, R71: V-M17, V-K6, V-EN6 and V-EN2. -/
theorem test_step_results_dialects : stepResultIn { dialect with reservedWrite := .fault } (((boot [(0, 0x7B)]).setI 0x1FF).withFetchWord 16 0xF033) =
      some (.error (.reservedWrite 0x1FF)) ∧
    stepResultIn { dialect with keyIndexMode := .fault } ((boot [(1, 0x13)]).withFetchWord 16 0xE19E) =
      some (.error (.keyRegisterOutOfRange 0x13)) ∧
    stepResultIn { dialect with strict59 := false } ((boot [(1, 7), (2, 7)]).withFetchWord 16 0x5121) = some .ok ∧
    stepResultIn { dialect with onInvalid := .skip } State.reset = some (.error (.invalidInstruction 0 0x200)) := by decide
/-- V-T6. -/
theorem test_tick_beeps : (nextOf (perform .tickTimers (((boot []).setDt 5).setSt 1))).map (fun t => (t.dt, t.st, t.trace)) =
    some (4, 0, [.beep]) := by decide
/-- V-T5. -/
theorem test_tick_idle : (nextOf (perform .tickTimers (boot []))).map (fun t => (t.dt, t.st, t.trace)) = some (0, 0, []) := by decide
/-- V-K8. -/
theorem test_key_completes : (nextOf (perform (.setKey 3 true) ((boot []).setRun (.awaitingKey 5)))).map
    (fun t => (t.keyAt 3, t.reg 5, t.run)) = some (true, 3, .running) := by decide
/-- V-K9. -/
theorem test_held_key_does_not : (nextOf (perform (.setKey 2 true) (((boot []).setKeyAt 2 true).setRun (.awaitingKey 5)))).map
    (fun t => (t.keyAt 2, t.reg 5, t.run)) = some (true, 0, .awaitingKey 5) := by decide
/-- V-K13, V-K14. -/
theorem test_bad_key : (nextOf (perform (.setKey 16 true) (boot []))).map State.trace = some [.raised (.inputIndexOutOfRange 16)] ∧
    (nextOf (perform (.setKey (-1) false) (boot []))).map State.trace = some [.raised (.inputIndexOutOfRange (-1))] := by decide
/-- E7: the image lands at 0x200, and writes no register. -/
theorem test_load : (nextOf (perform (.loadProgram [0x60, 0x0A, 0x70, 0x05, 0x12, 0x00] none) (boot [(3, 7)]))).map
    (fun t => (t.fetch16 0x200, t.fetch16 0x202, t.fetch16 0x204, t.reg 3, t.pc)) =
    some (0x600A, 0x7005, 0x1200, 7, 0x200) := by decide
/-- V-H6. -/
theorem test_load_bad_font : (nextOf (perform (.loadProgram [0x12, 0x00] (some (List.replicate 79 0xFF))) (boot []))).map
    (fun t => (t.readByte 0x200, t.readByte 0, t.trace)) = some (0, 0xF0, [.raised (.loadError 79)]) := by decide
/-- V-H1. -/
theorem test_reset_restores : (nextOf (perform .reset (poke [(0x200, 0x12), (0, 0xFF)] ((boot [(3, 7)]).setRun (.halted .stackOverflow))))).map
    (fun t => (t.readByte 0x200, t.readByte 0, t.reg 3, t.run)) = some (0, 0xF0, 0, .running) := by decide

/-! ### Witnesses: the hypotheses of each statement that has some, met by a concrete state -/

/-- EncodeOfDecodedWord, DecoderReadsTheOpcodeTable. -/
theorem witness_encode_of_decoded : decodeWord true 0xD125 = .instr (.drw 1 2 5) ∧
    (∃ r ∈ opcodeRows, r.matches 0xD125 = true) := by decide
/-- StepRunsTheDecodedInstruction. -/
theorem witness_step_runs : let s := State.reset.withFetchWord 16 0x600A
    s.run = .running ∧ decodeWord true (s.fetch16 s.pc) = .instr (.ldByte 0 0x0A) := by decide
/-- StepOutsideRunningChangesNothing, both clauses. -/
theorem witness_step_outside : ((boot []).setRun (.awaitingKey 5)).run = .awaitingKey 5 ∧
    ((boot []).setRun (.halted .stackOverflow)).run = .halted .stackOverflow := ⟨rfl, rfl⟩
/-- InvalidWordIsReported, halting and skipping, and a strict-only invalid word. -/
theorem witness_invalid_word : State.reset.run = .running ∧ decodeWord true (State.reset.fetch16 State.reset.pc) = .invalid .zeroClass ∧
    decodeWord true ((State.reset.withFetchWord 16 0x5121).fetch16 0x200) = .invalid .compareNibble := by decide
/-- OnlyFetchedInvalidWordsAreReported, a step that reports and one that does not. -/
theorem witness_only_fetched_invalid : (∃ t, stepIn dialect State.reset = .next t) ∧ (∃ t, stepIn dialect (State.reset.withFetchWord 16 0x600A) = .next t) := ⟨⟨_, rfl⟩, ⟨_, rfl⟩⟩
/-- OnlyTheseInstructionsRaise: no error, and each of the four errors. -/
theorem witness_raises_none : (∃ t, execIn dialect (.jp 0) State.reset = .next t ∧ t.trace = State.reset.trace) ∧
    (∃ t, execIn dialect .ret State.reset = .next t ∧ t.run = .halted .stackUnderflow) ∧
    (∃ t, execIn dialect (.call 0) (State.reset.setSp 16) = .next t ∧ t.run = .halted .stackOverflow) ∧
    (∃ t, execIn { dialect with reservedWrite := .fault } (.ldMemVx 0) (State.reset.setI 0x1FF) = .next t ∧
      t.run = .halted .reservedWrite) ∧
    (∃ t, execIn { dialect with keyIndexMode := .fault } (.skp 0) (boot [(0, 16)]) = .next t ∧
      t.run = .halted .keyRegisterOutOfRange) := ⟨⟨_, rfl, rfl⟩, ⟨_, rfl, rfl⟩, ⟨_, rfl, rfl⟩, ⟨_, rfl, rfl⟩, ⟨_, rfl, rfl⟩⟩
/-- CallPushesOrOverflows, CallThenReturnResumesAfterTheCall: the first and the last free entry, and the full stack. -/
theorem witness_call_depths : (0 < 16 ∧ State.reset.sp.val = 0) ∧ (15 < 16 ∧ (State.reset.setSp 15).sp.val = 15) ∧ (State.reset.setSp 16).sp.val = 16 := by decide
/-- CallThenReturnResumesAfterTheCall: a state in between with another `pc` and registers. -/
theorem witness_call_then_return : ∃ t, exec (.call 0x300) (State.reset.setSp 15) = .next t ∧ (t.setReg 1 7).sp = t.sp ∧ (t.setReg 1 7).stack = t.stack := ⟨_, rfl, rfl, rfl⟩
/-- ReturnPopsOrUnderflows: depths 1 and 16, and 0. -/
theorem witness_return : (State.reset.setSp 1).sp.val = 0 + 1 ∧ (State.reset.setSp 16).sp.val = 15 + 1 ∧ State.reset.sp.val = 0 := by decide
/-- StackErrorStep, both clauses. -/
theorem witness_stack_error_step : let s := (State.reset.setSp 16).withFetchWord 16 0x2200
    let r := State.reset.withFetchWord 16 0x00EE
    (s.run = .running ∧ decodeWord true (s.fetch16 s.pc) = .instr (.call 0x200) ∧ s.sp.val = 16) ∧
    (r.run = .running ∧ decodeWord true (r.fetch16 r.pc) = .instr .ret ∧ r.sp.val = 0) := by decide
/-- KeySkipsTestTheNamedKey: values 15 and 16 in both modes. -/
theorem witness_key_skips : keyIndexIn .lowNibble ((boot [(1, 16)]).reg 1) = some 0 ∧ keyIndexIn .fault ((boot [(1, 15)]).reg 1) = some 15 ∧
    (0 : Key).val = ((boot [(1, 16)]).reg 1).toNat % 16 ∧ (dialect.keyIndexMode = .lowNibble) ∧
    (({ dialect with keyIndexMode := .fault } : Dialect).keyIndexMode = .fault ∧
      ((boot [(1, 15)]).reg 1).toNat = (15 : Key).val ∧ ((boot [(1, 0)]).reg 1).toNat = (0 : Key).val) ∧
    15 < ((boot [(1, 16)]).reg 1).toNat := by decide
/-- StoresPutBytesAtI: two dialects without FAULT, and under FAULT the lowest and the highest window free of reserved addresses. -/
theorem witness_stores : dialect.reservedWrite ≠ .fault ∧ ({ dialect with reservedWrite := .allow } : Dialect).reservedWrite ≠ .fault ∧
    (∀ k : Nat, k < 3 → 0x200 ≤ ((State.reset.setI 0x200).i.toNat + k) % 4096) ∧
    (∀ k : Nat, k < 3 → 0x200 ≤ ((State.reset.setI 0xFFD).i.toNat + k) % 4096) ∧
    (∀ r : Reg, r ≤ 15 → 0x200 ≤ ((State.reset.setI 0x200).i.toNat + r.val) % 4096) ∧
    (∀ r : Reg, r ≤ 15 → 0x200 ≤ ((State.reset.setI 0xFF0).i.toNat + r.val) % 4096) := by decide
/-- ReservedFaultStopsTheStore, FX33: stopped at the first digit, and at the last, which wraps from 0xFFF to 0x000. -/
theorem witness_reserved_fault_digits : ((0 : Nat) < 3 ∧ ((State.reset.setI 0x1FF).i.toNat + 0) % 4096 < 0x200 ∧
      ∀ k : Nat, k < 0 → 0x200 ≤ ((State.reset.setI 0x1FF).i.toNat + k) % 4096) ∧
    ((2 : Nat) < 3 ∧ ((State.reset.setI 0xFFE).i.toNat + 2) % 4096 < 0x200 ∧
      ∀ k : Nat, k < 2 → 0x200 ≤ ((State.reset.setI 0xFFE).i.toNat + k) % 4096) := by decide
/-- ReservedFaultStopsTheStore, FX55: stopped at the first byte, and at the byte that wraps from 0xFFF to 0x000. -/
theorem witness_reserved_fault : ((0 : Reg) ≤ 3 ∧ ((State.reset.setI 0x1FF).i.toNat + (0 : Reg).val) % 4096 < 0x200 ∧
      ∀ r : Reg, r < 0 → 0x200 ≤ ((State.reset.setI 0x1FF).i.toNat + r.val) % 4096) ∧
    ((1 : Reg) ≤ 3 ∧ ((State.reset.setI 0xFFF).i.toNat + (1 : Reg).val) % 4096 < 0x200 ∧
      ∀ r : Reg, r < 1 → 0x200 ≤ ((State.reset.setI 0xFFF).i.toNat + r.val) % 4096) := by decide
/-- StoreThenLoadRestoresRegisters: the lowest and the highest window of 16 bytes. -/
theorem witness_store_then_load : (∀ k : Nat, k ≤ (15 : Reg).val → 0x200 ≤ ((State.reset.setI 0x200).i.toNat + k) % 4096) ∧
    (∀ k : Nat, k ≤ (15 : Reg).val → 0x200 ≤ ((State.reset.setI 0xFF0).i.toNat + k) % 4096) := by
  refine ⟨fun k hk => ?_, fun k hk => ?_⟩
  · show 0x200 ≤ (0x200 + k) % 4096
    have h : k ≤ 15 := hk
    omega
  · show 0x200 ≤ (0xFF0 + k) % 4096
    have h : k ≤ 15 := hk
    omega
/-- DecimalDigitsMakeTheValue: the highest window. -/
theorem witness_digits : ∀ k : Nat, k < 3 → 0x200 ≤ ((State.reset.setI 0xFFD).i.toNat + k) % 4096 := by decide
/-- StoredWordIsFetchedNext: the lowest and the highest address. -/
theorem witness_stored_word : (1 ≤ (1 : Reg).val ∧ (State.reset.setI 0x200).i.toNat % 4096 = (State.reset.setI 0x200).pc.toNat % 4096 ∧
      0x200 ≤ (State.reset.setI 0x200).pc.toNat % 4096 ∧ (State.reset.setI 0x200).pc.toNat % 4096 < 4095) ∧
    (((State.reset.setI 0x1FFE).setPc 0xFFE).i.toNat % 4096 = ((State.reset.setI 0x1FFE).setPc 0xFFE).pc.toNat % 4096 ∧
      0x200 ≤ ((State.reset.setI 0x1FFE).setPc 0xFFE).pc.toNat % 4096 ∧
      ((State.reset.setI 0x1FFE).setPc 0xFFE).pc.toNat % 4096 < 4095) := by decide
/-- DrawTogglesTheSpritePixels: a sprite bit over an on pixel (flag 1), and a clear screen (flag 0). -/
theorem witness_draw_toggles : (spriteBit ((poke [(0x300, 0xC0)] State.reset).readByte 0x300) 1 = true ∧ pixel (light [(1, 0)] State.reset).fb 1 0 = true) ∧
    pixel State.reset.fb 1 0 = false := by decide
/-- DrawTwiceRestoresTheFramebuffer: coordinate registers, and the premise of the last clause. -/
theorem witness_draw_twice : (14 : Reg) ≠ flagReg ∧ (0 : Reg) ≠ flagReg ∧ ∀ px py, pixel State.reset.fb px py = false := ⟨by decide, by decide, fun px py => pixel_clearGrid px py⟩
/-- SetKeyWritesTheLatch: the indices next to the range. -/
theorem witness_set_key_range : ((-1 : Int) < 0 ∨ (15 : Int) < -1) ∧ ((16 : Int) < 0 ∨ (15 : Int) < 16) := by decide
/-- SetKeyWritesTheLatch: a key-up, a held key, and a key-down of keys 0 and 15 while waiting. -/
theorem witness_set_key_latch : (State.reset.setKeyAt 15 true).keyAt 15 = true ∧ State.reset.keyAt 0 = false ∧
    (State.reset.setRun (.awaitingKey 5)).run = .awaitingKey 5 ∧ (State.reset.setRun (.awaitingKey 5)).keyAt 15 = false ∧
    ∀ x, State.reset.run ≠ .awaitingKey x := by decide
/-- KeyWaitDoesNotStallTimers. -/
theorem witness_key_wait : (State.reset.setRun (.awaitingKey 5)).run = .awaitingKey 5 ∧
    ∀ c ∈ [HostCall.step, .tickTimers, .getFramebuffer], c = .step ∨ c = .tickTimers ∨ c = .getFramebuffer := by decide
/-- FairTicksRunTheTimersOut: the schedule that only ticks, from a waiting state with both timers at 255. -/
theorem witness_fair_ticks : let σ : Nat → State := fun n => tickTimers^[n] (((State.reset.setDt 0xFF).setSt 0xFF).setRun (.awaitingKey 5))
    let schedule : Nat → HostCall := fun _ => .tickTimers
    TicksForever schedule ∧ (∀ n, perform (schedule n) (σ n) = .next (σ (n + 1))) ∧
    (∀ n, schedule n ≠ .reset ∧ ∀ k p, schedule n ≠ .setKey k p) ∧ WaitingForKey (σ 0) := by
  refine ⟨fun n => ⟨n, Nat.le_refl n, rfl⟩, fun n => ?_, fun n => ⟨HostCall.noConfusion, fun k p => HostCall.noConfusion⟩, ⟨5, rfl⟩⟩
  exact congrArg Host.Outcome.next (Function.iterate_succ_apply' tickTimers n _).symm
/-- LoadPlacesTheProgram, first clause: 3585 bytes. -/
theorem witness_load_too_long : 3584 < (List.replicate 3585 (0x5A : Byte)).length := by
  rw [List.length_replicate]
  omega
/-- LoadPlacesTheProgram, second clause: fonts of 79 and 81 bytes. -/
theorem witness_load_bad_font : ([] : List Byte).length ≤ 3584 ∧ (List.replicate 79 (0xFF : Byte)).length ≠ 80 ∧ (List.replicate 81 (0xFF : Byte)).length ≠ 80 := by simp
/-- LoadPlacesTheProgram, third clause: 3584 bytes with no font, and with a font of 80. -/
theorem witness_load_fits : (List.replicate 3584 (0x5A : Byte)).length ≤ 3584 ∧ (∀ f : List Byte, none = some f → f.length = 80) ∧
    (∀ f, some (List.replicate 80 (0xFF : Byte)) = some f → f.length = 80) := by
  refine ⟨(List.length_replicate ..).le, fun f h => (Option.some_ne_none f h.symm).elim, fun f h => ?_⟩
  rw [← Option.some.inj h, List.length_replicate]
/-- StepKeepsTheInvariant: a running state that steps, and a halted one that has reported. -/
theorem witness_inv : (Inv (State.reset.setPc 0x300) ∧ ∃ t, step (State.reset.setPc 0x300) = .next t) ∧
    Inv (State.reset.raiseFatal (.stackUnderflow 0x200)) := by
  refine ⟨⟨⟨Memory.wf_nil, fun e h => RunState.noConfusion h, fun e h => RunState.noConfusion h⟩, _, rfl⟩,
    Memory.wf_nil, fun e h => ?_, fun e h => ?_⟩
  · rw [← RunState.halted.inj h]
    rfl
  · exact ⟨.stackUnderflow 0x200, RunState.halted.inj h, List.mem_cons_self⟩
/-- EveryCallKeepsTheInvariant, ReservedBytesStayZero, second clauses: a state after a load and a step. -/
theorem witness_reachable : ∃ s, ReachableIn dialect s ∧ s.reg 0 = 0x0A := ⟨_, .call .step _ _ (.call (.loadProgram [0x60, 0x0A] none) _ _ .reset rfl) rfl, by decide⟩
/-- EveryCallKeepsTheInvariant, first clause: a halted state with the invariant, and a call. -/
theorem witness_host_call : Inv (State.reset.raiseFatal (.stackUnderflow 0x200)) ∧
    ∃ t, performIn dialect (.setKey 16 true) (State.reset.raiseFatal (.stackUnderflow 0x200)) = .next t := ⟨witness_inv.2, _, rfl⟩
/-- ReservedBytesStayZero, first clause: a state whose program and font bytes differ from reset, and a load. -/
theorem witness_reserved_zero : let s := State.reset.setMem [(0x04F, 1), (0x200, 1)]
    ReservedIsZero s ∧ ∃ t, performIn dialect (.loadProgram [0x12] none) s = .next t := by
  refine ⟨fun a h1 h2 => ?_, _, rfl⟩
  have h3 : 80 ≤ a := h1
  have h4 : a < 512 := h2
  have hb : fontData[a - 0]? = none := List.getElem?_eq_none h3
  simp only [State.setMem_mem, Memory.read, Memory.unlisted, List.getD_eq_getElem?_getD, fontBase, hb]
  rw [if_neg (by omega), if_neg (by omega)]
  simp
/-- WritersOfEachPiece: each piece changed by an instruction that may. -/
theorem witness_writers : let differ := fun (d : Dialect) (i : Instr) (s : State) {α : Type} (f : State → α) => ∃ t, execIn d i s = .next t ∧ f t ≠ f s
    differ dialect .cls (light [(0, 0)] State.reset) (fun t => pixel t.fb 0 0) ∧
    differ dialect (.ldMemVx 0) ((boot [(0, 1)]).setI 0x300) State.mem ∧
    differ dialect (.call 0) State.reset State.sp ∧
    differ dialect (.ldDTVx 0) (boot [(0, 1)]) State.dt ∧ differ dialect (.ldSTVx 0) (boot [(0, 1)]) State.st ∧
    differ dialect (.ldI 1) State.reset State.i ∧
    differ { dialect with memOpsIncrementI := true } (.ldVxMem 0) State.reset State.i := by
  refine ⟨⟨_, rfl, ?_⟩, ⟨_, rfl, ?_⟩, ⟨_, rfl, ?_⟩, ⟨_, rfl, ?_⟩, ⟨_, rfl, ?_⟩, ⟨_, rfl, ?_⟩, ⟨_, rfl, ?_⟩⟩ <;> decide
/-- NoInstructionReadsTheSoundTimer. -/
theorem witness_sound_timer : ∃ t u, stepIn dialect (State.reset.withFetchWord 16 0x600A) = .next t ∧
    stepIn dialect ((State.reset.withFetchWord 16 0x600A).setSt 5) = .next u := ⟨_, _, rfl, rfl⟩
/-- DeadStackEntriesAreUnobservable: two states with different dead entries, one live entry, and a step. -/
theorem witness_dead_stack : let s := (State.reset.setSp 1).withFetchWord 16 0x00EE
    let s' := s.setStack (s.stack.set 1 0x777)
    AgreeOnLiveStack s s' ∧ s ≠ s' ∧ ∃ t, stepIn dialect s = .next t := by
  refine ⟨⟨rfl, ?_⟩, fun h => ?_, _, rfl⟩
  · decide
  · have h' := congrArg (fun t : State => t.stack[1]) h
    exact absurd h' (by decide)
/-- SelfJumpIsDone: `1200` at 0x200. -/
theorem witness_self_jump : let s := State.reset.withFetchWord 16 0x1200
    s.run = .running ∧ decodeWord true (s.fetch16 s.pc) = .instr (.jp 0x200) ∧ s.pc.toNat = (0x200 : Addr12).toNat := by decide
/-- RegisterWritersFrame, a member of each group. -/
theorem witness_register_frames : (∃ t, exec (.ldByte 1 2) State.reset = .next t) ∧ (∃ t, exec (.addReg 1 2) State.reset = .next t) ∧
    (∃ t, exec (.rnd 1 2) State.reset = .next t) := ⟨⟨_, rfl⟩, ⟨_, rfl⟩, ⟨_, rfl⟩⟩
/-- ControlTransferFrame: a jump, CALL at depths 15 and 16, RET at depths 1 and 0. -/
theorem witness_control_frames : (∃ t, exec (.jp 2) State.reset = .next t) ∧ (∃ t, exec (.call 2) (State.reset.setSp 15) = .next t ∧ t.sp = 16) ∧
    (∃ t, exec (.call 2) (State.reset.setSp 16) = .next t ∧ t.run = .halted .stackOverflow) ∧
    (∃ t, exec .ret (State.reset.setSp 1) = .next t ∧ t.sp = 0) ∧
    (∃ t, exec .ret State.reset = .next t ∧ t.run = .halted .stackUnderflow) := ⟨⟨_, rfl⟩, ⟨_, rfl, rfl⟩, ⟨_, rfl, rfl⟩, ⟨_, rfl, rfl⟩, ⟨_, rfl, rfl⟩⟩
/-- MemoryInstructionsFrame, with a window that wraps, and a byte outside it. -/
theorem witness_memory_frames : (∃ t, exec (.ldBVx 1) (State.reset.setI 0xFFE) = .next t) ∧ (∃ t, exec (.ldMemVx 15) (State.reset.setI 0xFFF) = .next t) ∧
    (∃ t, exec (.ldVxMem 15) State.reset = .next t) ∧ effective 0x300 ∉ window 0xFFF 16 := ⟨⟨_, rfl⟩, ⟨_, rfl⟩, ⟨_, rfl⟩, by decide⟩
/-- SpecialWritersFrame. -/
theorem witness_special_frames : (∃ t, exec (.ldI 1) State.reset = .next t) ∧ (∃ t, exec (.ldDTVx 1) State.reset = .next t) ∧
    (∃ t, exec (.ldSTVx 1) State.reset = .next t) ∧ (∃ t, exec (.ldVxK 1) State.reset = .next t) := ⟨⟨_, rfl⟩, ⟨_, rfl⟩, ⟨_, rfl⟩, ⟨_, rfl⟩⟩
/-- DisplayFrame. -/
theorem witness_display_frames : (∃ t, exec .cls State.reset = .next t) ∧ (∃ t, exec (.drw 1 2 5) State.reset = .next t) := ⟨⟨_, rfl⟩, ⟨_, rfl⟩⟩
/-- StepReturnsItsResult: an invalid word, an error of the execute phase, FX0A and a completed instruction. -/
theorem witness_step_result : State.reset.run = .running ∧ decodeWord dialect.strict59 (State.reset.fetch16 0x200) = .invalid .zeroClass ∧
    decodeWord dialect.strict59 ((State.reset.withFetchWord 16 0x00EE).fetch16 0x200) = .instr .ret ∧
    decodeWord dialect.strict59 ((State.reset.withFetchWord 16 0xF50A).fetch16 0x200) = .instr (.ldVxK 5) ∧
    decodeWord false ((State.reset.withFetchWord 16 0x5121).fetch16 0x200) = .instr (.seReg 1 2) := by decide

end Sys2Proof.Tests
end

section
/-! The scope of the model: the dialect that the unparametrised functions run (spec/00_scope.md R5). -/

open Sys2Proof.Machine

namespace Sys2Proof.Proofs

/-- Settles O13: the settings of `dialect` are those of its definition, and each function agrees with its parametrised form
by the law proved for it. -/
theorem execIsTheDefaultDialect : Obligations.ExecIsTheDefaultDialect :=
  ⟨rfl, exec_eq_execIn, step_eq_stepIn, perform_eq_performIn⟩

end Sys2Proof.Proofs
end

section
/-! What an instruction can make of a state, said once, with what follows from it: the writers of each piece
(spec/10_state.md R16, R22 to R24, R27, R29) and the invariant (R31, R111). -/

open Sys2Proof Sys2Proof.Machine

namespace Sys2Proof.Proofs

/-- `I` may be written by the instruction (R16). -/
def WritesI (d : Dialect) (i : Instr) : Prop :=
  (∃ nnn, i = .ldI nnn) ∨ (∃ x, i = .addIVx x ∨ i = .ldFVx x) ∨
    (d.memOpsIncrementI = true ∧ ∃ x, i = .ldMemVx x ∨ i = .ldVxMem x)

/-- Memory may be written by the instruction (R50). -/
def WritesMem (i : Instr) : Prop := ∃ x, i = .ldBVx x ∨ i = .ldMemVx x

/-- The kinds of next state of an instruction, by the pieces it writes. The display, store, stack and timer kinds, and a
new value of `I`, name the instructions that may have them. -/
inductive Effect (d : Dialect) (i : Instr) (s : State) : State → Prop where
  /-- Registers, the count of draws, and `I`. -/
  | registers (v : Vector Byte 16) (n : Nat) (w : Word) (hw : w = s.i ∨ WritesI d i) :
      Effect d i s { s with v := v, draws := n, i := w }
  /-- A jump, or a skip that is taken or not. -/
  | jump (w : Word) : Effect d i s (s.setPc w)
  /-- The framebuffer, with the flag register. -/
  | display (v : Vector Byte 16) (g : Framebuffer) (h : i = .cls ∨ ∃ x y n, i = .drw x y n) :
      Effect d i s { s with v := v, fb := g }
  /-- A run of stores that did not stop, and `I`. -/
  | store (m : Memory) (w : Word) (h : WritesMem i) (hm : s.mem.wf → m.wf) (hw : w = s.i ∨ WritesI d i) :
      Effect d i s { s with mem := m, i := w }
  /-- A push or a pop, and the jump it belongs to. -/
  | stack (k : Vector Word 16) (n : Fin 17) (w : Word) (h : i = .ret ∨ ∃ nnn, i = .call nnn) :
      Effect d i s { s with stack := k, sp := n, pc := w }
  /-- The delay timer. -/
  | delay (x : Reg) (b : Byte) (h : i = .ldDTVx x) : Effect d i s (s.setDt b)
  /-- The sound timer. -/
  | sound (x : Reg) (b : Byte) (h : i = .ldSTVx x) : Effect d i s (s.setSt b)
  /-- The suspension of FX0A. -/
  | wait (x : Reg) : Effect d i s (s.setRun (.awaitingKey x))
  /-- A fatal error, which stops a run of stores after some of them or finds memory as it was. -/
  | fatal (m : Memory) (e : Error) (hm : m = s.mem ∨ WritesMem i) (hwf : s.mem.wf → m.wf) (he : e.kind.canHalt = true) :
      Effect d i s ((s.setMem m).raiseFatal e)

/-! ### The shared operations -/

/-- The increment of `I` writes a value that depends on `I` alone, and the old one unless the dialect asks for the increment. -/
theorem incrementIIn_writes (d : Dialect) (x : Reg) (s : State) :
    ∃ w, (w = s.i ∨ d.memOpsIncrementI = true) ∧ ∀ t : State, t.i = s.i → t.incrementIIn d x = t.setI w := by
  refine ⟨if d.memOpsIncrementI then s.i + BitVec.ofNat 16 (x.val + 1) else s.i, ?_, fun t ht => ?_⟩
  · split
    · next h => exact .inr h
    · exact .inl rfl
  · rw [State.incrementIIn_eq, ht]

/-- A skip is a jump, to where `pc` points already when the condition fails. -/
theorem Effect.skipIf (d : Dialect) (i : Instr) (s : State) (c : Bool) : Effect d i s (s.skipIf c) := by
  rw [State.skipIf_eq]
  exact .jump _

/-- A fatal error alone. -/
theorem Effect.raiseFatal (d : Dialect) (i : Instr) (s : State) (e : Error) (he : e.kind.canHalt = true) :
    Effect d i s (s.raiseFatal e) :=
  .fatal s.mem e (.inl rfl) id he

/-- A logic instruction writes registers alone. -/
theorem logicWriteIn_effect (d : Dialect) (i : Instr) (x : Reg) (b : Byte) (s : State) :
    ∃ t, logicWriteIn d x b s = .next t ∧ Effect d i s t := by
  refine ⟨_, rfl, ?_⟩
  split
  · exact .registers _ _ _ (.inl rfl)
  · exact .registers _ _ _ (.inl rfl)

/-- A run of stores changes memory alone or stops with an error that can halt, and keeps the canonical form of memory. -/
theorem storeBytesIn_effect (d : Dialect) (a : Word) (bs : List Byte) (s : State) :
    ∃ m, (s.mem.wf → m.wf) ∧
      (storeBytesIn d a bs s = .done (s.setMem m) ∨
        ∃ ea, storeBytesIn d a bs s = .stopped ((s.setMem m).raiseFatal (.reservedWrite ea))) := by
  have hwf : s.mem.wf → ((storeBytesIn d a bs s).andThen id).mem.wf := fun h =>
    storeBytesIn_mem d Memory.wf (fun m a b _ hm => Memory.wf_write m _ b hm (effective_lt a)) bs a s h id (fun _ => rfl)
  rcases storeBytesIn_cases d a bs s with ⟨m, hm⟩ | ⟨-, m, ea, -, hm⟩
  · rw [hm] at hwf
    exact ⟨m, hwf, .inl hm⟩
  · rw [hm] at hwf
    exact ⟨m, hwf, .inr ⟨ea, hm⟩⟩

/-- A run of stores and what comes after it. -/
theorem store_effect {d : Dialect} {i : Instr} (hi : WritesMem i) (a : Word) (bs : List Byte) (s : State) (f : State → State)
    (w : Word) (hf : ∀ m, f (s.setMem m) = (s.setMem m).setI w) (hw : w = s.i ∨ WritesI d i) :
    Effect d i s ((storeBytesIn d a bs s).andThen f) := by
  obtain ⟨m, hm, h | ⟨ea, h⟩⟩ := storeBytesIn_effect d a bs s
  · rw [h, Stored.andThen, hf]
    exact .store m w hi hm hw
  · rw [h]
    exact .fatal m _ (.inr hi) hm rfl

/-- A key skip whose register names a key (R105, R106). -/
theorem skipOnKeyIn_some (d : Dialect) (p : Bool) (x : Reg) (s : State) (k : Key)
    (h : keyIndexIn d.keyIndexMode (s.reg x) = some k) : skipOnKeyIn d p x s = .next (s.skipIf (s.keyAt k == p)) := by
  simp only [skipOnKeyIn, h]

/-- A key skip whose register names none, in the dialect that makes it an error (R104). -/
theorem skipOnKeyIn_none (d : Dialect) (p : Bool) (x : Reg) (s : State)
    (h : keyIndexIn d.keyIndexMode (s.reg x) = none) :
    skipOnKeyIn d p x s = .next (s.raiseFatal (.keyRegisterOutOfRange (s.reg x))) := by
  simp only [skipOnKeyIn, h]

/-- A key skip jumps, or stops with an error that can halt. -/
theorem skipOnKeyIn_effect (d : Dialect) (i : Instr) (p : Bool) (x : Reg) (s : State) :
    ∃ t, skipOnKeyIn d p x s = .next t ∧ Effect d i s t := by
  cases h : keyIndexIn d.keyIndexMode (s.reg x) with
  | some k => exact ⟨_, skipOnKeyIn_some d p x s k h, .skipIf d i s _⟩
  | none => exact ⟨_, skipOnKeyIn_none d p x s h, .raiseFatal d i s _ rfl⟩

/-! ### The control transfers, by the depth -/

/-- The depth is 0, or one more than that of an entry. -/
theorem sp_eq_zero_or_succ (s : State) : s.sp.val = 0 ∨ ∃ k, k < 16 ∧ s.sp.val = k + 1 := by
  have := s.sp.isLt
  rcases Nat.eq_zero_or_eq_succ_pred s.sp.val with h | h
  · exact .inl h
  · exact .inr ⟨s.sp.val - 1, by omega, by omega⟩

/-- The depth is that of a free entry, or 16. -/
theorem sp_lt_or_full (s : State) : s.sp.val < 16 ∨ s.sp.val = 16 := by
  have := s.sp.isLt
  omega

/-- RET above depth 0 (R76). -/
theorem execRet_of_pos (s : State) (k : Nat) (hk : k < 16) (h : s.sp.val = k + 1) :
    execRet s = .next ((s.setSp ⟨k, by omega⟩).setPc s.stack[k]) := by
  simp only [execRet, State.pop?_of_pos s k hk h]

/-- RET at depth 0 (R115). -/
theorem execRet_empty (s : State) (h : s.sp.val = 0) :
    execRet s = .next (s.raiseFatal (.stackUnderflow s.fetchAddress)) := by
  simp only [execRet, State.pop?_empty s h]

/-- CALL below depth 16 (R78). -/
theorem execCall_of_lt (nnn : Addr12) (s : State) (k : Nat) (hk : k < 16) (h : s.sp.val = k) :
    execCall nnn s =
      .next (((s.setStack (s.stack.set k s.pc hk)).setSp ⟨k + 1, by omega⟩).setPc (nnn.setWidth 16)) := by
  simp only [execCall, State.push?_of_lt s s.pc k hk h]

/-- CALL at depth 16 (R114). -/
theorem execCall_full (nnn : Addr12) (s : State) (h : s.sp.val = 16) :
    execCall nnn s = .next (s.raiseFatal (.stackOverflow s.fetchAddress)) := by
  simp only [execCall, State.push?_full s s.pc h]

theorem execRet_effect (d : Dialect) (s : State) : ∃ t, execRet s = .next t ∧ Effect d .ret s t := by
  rcases sp_eq_zero_or_succ s with h | ⟨k, hk, h⟩
  · exact ⟨_, execRet_empty s h, .raiseFatal d _ s _ rfl⟩
  · exact ⟨_, execRet_of_pos s k hk h, .stack _ _ _ (.inl rfl)⟩

theorem execCall_effect (d : Dialect) (nnn : Addr12) (s : State) :
    ∃ t, execCall nnn s = .next t ∧ Effect d (.call nnn) s t := by
  rcases sp_lt_or_full s with h | h
  · exact ⟨_, execCall_of_lt nnn s _ h rfl, .stack _ _ _ (.inr ⟨nnn, rfl⟩)⟩
  · exact ⟨_, execCall_full nnn s h, .raiseFatal d _ s _ rfl⟩

/-! ### Every instruction -/

/-- FX1E writes `I`, and the flag register where the dialect says so. -/
theorem addIVxIn_effect (d : Dialect) (x : Reg) (s : State) :
    ∃ t, addIVxIn d x s = .next t ∧ Effect d (.addIVx x) s t := by
  have hw : WritesI d (.addIVx x) := .inr (.inl ⟨x, .inl rfl⟩)
  refine ⟨_, rfl, ?_⟩
  split
  · exact .registers _ _ _ (.inr hw)
  · exact .registers _ _ _ (.inr hw)

/-- FX65 writes registers, and `I` where the dialect says so. -/
theorem ldVxMemIn_effect (d : Dialect) (x : Reg) (s : State) :
    ∃ t, ldVxMemIn d x s = .next t ∧ Effect d (.ldVxMem x) s t := by
  obtain ⟨v, hv⟩ := loadRegs_eq s.i (regsTo x) s
  obtain ⟨w, hw, hinc⟩ := incrementIIn_writes d x s
  refine ⟨_, rfl, ?_⟩
  rw [hv, hinc { s with v := v } rfl]
  exact .registers v _ w (hw.imp_right fun h => .inr (.inr ⟨h, x, .inr rfl⟩))

/-- FX55 stores, and writes `I` where the dialect says so. -/
theorem ldMemVxIn_effect (d : Dialect) (x : Reg) (s : State) :
    ∃ t, ldMemVxIn d x s = .next t ∧ Effect d (.ldMemVx x) s t := by
  obtain ⟨w, hw, hinc⟩ := incrementIIn_writes d x s
  exact ⟨_, rfl, store_effect ⟨x, .inr rfl⟩ _ _ s _ w (fun m => hinc (s.setMem m) rfl)
    (hw.imp_right fun h => .inr (.inr ⟨h, x, .inl rfl⟩))⟩

/-- Every instruction, in every state and every dialect, answers a next state of one of the kinds. -/
theorem execIn_effect (d : Dialect) (i : Instr) (s : State) : ∃ t, execIn d i s = .next t ∧ Effect d i s t := by
  cases i with
  | cls => exact ⟨_, rfl, .display s.v _ (.inl rfl)⟩
  | drw x y n => exact ⟨_, rfl, .display _ _ (.inr ⟨x, y, n, rfl⟩)⟩
  | ret => exact execRet_effect d s
  | call nnn => exact execCall_effect d nnn s
  | jp nnn => exact ⟨_, rfl, .jump _⟩
  | jpV0 nnn => exact ⟨_, rfl, .jump _⟩
  | seByte x nn => exact ⟨_, rfl, .skipIf d _ s _⟩
  | sneByte x nn => exact ⟨_, rfl, .skipIf d _ s _⟩
  | seReg x y => exact ⟨_, rfl, .skipIf d _ s _⟩
  | sneReg x y => exact ⟨_, rfl, .skipIf d _ s _⟩
  | skp x => exact skipOnKeyIn_effect d _ true x s
  | sknp x => exact skipOnKeyIn_effect d _ false x s
  | orReg x y => exact logicWriteIn_effect d _ x _ s
  | andReg x y => exact logicWriteIn_effect d _ x _ s
  | xorReg x y => exact logicWriteIn_effect d _ x _ s
  | ldByte x nn => exact ⟨_, rfl, .registers _ _ _ (.inl rfl)⟩
  | addByte x nn => exact ⟨_, rfl, .registers _ _ _ (.inl rfl)⟩
  | ldReg x y => exact ⟨_, rfl, .registers _ _ _ (.inl rfl)⟩
  | addReg x y => exact ⟨_, rfl, .registers _ _ _ (.inl rfl)⟩
  | subReg x y => exact ⟨_, rfl, .registers _ _ _ (.inl rfl)⟩
  | subn x y => exact ⟨_, rfl, .registers _ _ _ (.inl rfl)⟩
  | shr x y => exact ⟨_, rfl, .registers _ _ _ (.inl rfl)⟩
  | shl x y => exact ⟨_, rfl, .registers _ _ _ (.inl rfl)⟩
  | rnd x nn => exact ⟨_, rfl, .registers _ _ _ (.inl rfl)⟩
  | ldVxDT x => exact ⟨_, rfl, .registers _ _ _ (.inl rfl)⟩
  | ldVxMem x => exact ldVxMemIn_effect d x s
  | ldI nnn => exact ⟨_, rfl, .registers s.v s.draws _ (.inr (.inl ⟨nnn, rfl⟩))⟩
  | addIVx x => exact addIVxIn_effect d x s
  | ldFVx x => exact ⟨_, rfl, .registers s.v s.draws _ (.inr (.inr (.inl ⟨x, .inr rfl⟩)))⟩
  | ldBVx x => exact ⟨_, rfl, store_effect ⟨x, .inl rfl⟩ _ _ s id s.i (fun _ => rfl) (.inl rfl)⟩
  | ldMemVx x => exact ldMemVxIn_effect d x s
  | ldVxK x => exact ⟨_, rfl, .wait x⟩
  | ldDTVx x => exact ⟨_, rfl, .delay x _ rfl⟩
  | ldSTVx x => exact ⟨_, rfl, .sound x _ rfl⟩

/-- The next state that an instruction answers is of one of the kinds. -/
theorem effect_of_execIn {d : Dialect} {i : Instr} {s t : State} (h : execIn d i s = .next t) : Effect d i s t := by
  obtain ⟨u, hu, he⟩ := execIn_effect d i s
  obtain rfl : u = t := Host.Outcome.next.inj (hu.symm.trans h)
  exact he

/-! ### The writers of each piece -/

section
variable {d : Dialect} {i : Instr} {s t : State}

theorem Effect.fb_same_or (h : Effect d i s t) : t.fb = s.fb ∨ i = .cls ∨ ∃ x y n, i = .drw x y n := by
  cases h with
  | display v g hi => exact .inr hi
  | _ => exact .inl rfl

theorem Effect.mem_same_or (h : Effect d i s t) : t.mem = s.mem ∨ WritesMem i := by
  cases h with
  | store m w hi hwf hw => exact .inr hi
  | fatal m e hi hwf he => exact hi
  | _ => exact .inl rfl

theorem Effect.stack_same_or (h : Effect d i s t) :
    (t.sp = s.sp ∧ t.stack = s.stack) ∨ i = .ret ∨ ∃ nnn, i = .call nnn := by
  cases h with
  | stack k n w hi => exact .inr hi
  | _ => exact .inl ⟨rfl, rfl⟩

theorem Effect.key_same (h : Effect d i s t) : t.key = s.key := by
  cases h <;> rfl

theorem Effect.dt_same_or (h : Effect d i s t) : t.dt = s.dt ∨ ∃ x, i = .ldDTVx x := by
  cases h with
  | delay x b hi => exact .inr ⟨x, hi⟩
  | _ => exact .inl rfl

theorem Effect.st_same_or (h : Effect d i s t) : t.st = s.st ∨ ∃ x, i = .ldSTVx x := by
  cases h with
  | sound x b hi => exact .inr ⟨x, hi⟩
  | _ => exact .inl rfl

theorem Effect.i_same_or (h : Effect d i s t) : t.i = s.i ∨ WritesI d i := by
  cases h with
  | registers v n w hw => exact hw
  | store m w hi hwf hw => exact hw
  | _ => exact .inl rfl

end

/-- Settles O51: each piece is written by those kinds of effect alone that name its writers. -/
theorem writersOfEachPiece : Obligations.WritersOfEachPiece := by
  intro d i s t h
  have he := effect_of_execIn h
  exact ⟨he.fb_same_or.resolve_left, he.mem_same_or.resolve_left,
    fun hne => he.stack_same_or.resolve_left fun ⟨hsp, hstack⟩ => hne.elim (· hsp) (· hstack), he.key_same,
    he.dt_same_or.resolve_left, he.st_same_or.resolve_left, he.i_same_or.resolve_left⟩

/-! ### The invariant -/

/-- The invariant holds on where the run state stays, no event is lost and memory is canonical. -/
theorem inv_of_same_run {s t : State} (hs : Inv s) (hm : t.mem.wf) (hrun : t.run = s.run) (htrace : s.trace ⊆ t.trace) :
    Inv t := by
  obtain ⟨-, hfatal, hreported⟩ := hs
  refine ⟨hm, fun e he => hfatal e (hrun ▸ he), fun e he => ?_⟩
  obtain ⟨err, hkind, hmem⟩ := hreported e (hrun ▸ he)
  exact ⟨err, hkind, htrace hmem⟩

/-- The invariant holds of every state with canonical memory that has not halted. -/
theorem inv_of_not_halted {t : State} (hm : t.mem.wf) (hrun : ∀ e, t.run ≠ .halted e) : Inv t :=
  ⟨hm, fun e he => absurd he (hrun e), fun e he => absurd he (hrun e)⟩

/-- Taking a fatal error makes the two clauses about halts true, whatever they were. -/
theorem inv_raiseFatal {s : State} (hm : s.mem.wf) {e : Error} (he : e.kind.canHalt = true) : Inv (s.raiseFatal e) := by
  refine ⟨hm, fun k hk => ?_, fun k hk => ⟨e, RunState.halted.inj hk, List.mem_cons_self⟩⟩
  rw [← RunState.halted.inj hk]
  exact he

/-- Every kind of effect keeps the invariant. -/
theorem Effect.inv {d : Dialect} {i : Instr} {s t : State} (h : Effect d i s t) (hs : Inv s) : Inv t := by
  have hm := hs.1
  cases h with
  | store m w hi hwf hw => exact inv_of_same_run hs (hwf hm) rfl (List.Subset.refl _)
  | wait x => exact inv_of_not_halted hm (fun e he => RunState.noConfusion he)
  | fatal m e hi hwf he => exact inv_raiseFatal (s := s.setMem m) (hwf hm) he
  | _ => exact inv_of_same_run hs hm rfl (List.Subset.refl _)

/-- The report of an invalid word keeps the invariant, halting or not. -/
theorem inv_raiseInvalid {s : State} (hs : Inv s) (d : Dialect) (w a : Word) : Inv (s.raiseInvalid d w a) := by
  unfold State.raiseInvalid
  split
  · exact inv_raiseFatal hs.1 rfl
  · exact inv_of_same_run hs hs.1 rfl (List.subset_cons_self _ _)

/-- Advancing `pc` keeps the invariant. -/
theorem inv_setPc {s : State} (hs : Inv s) (w : Word) : Inv (s.setPc w) :=
  inv_of_same_run hs hs.1 rfl (List.Subset.refl _)

/-- A step in any dialect keeps the invariant. -/
theorem stepIn_inv (d : Dialect) (s t : State) (hs : Inv s) (h : stepIn d s = .next t) : Inv t := by
  rcases engineStepIn_cases d (execIn d) s with ⟨-, he⟩ | ⟨-, i, -, he⟩ | ⟨-, why, -, he⟩
  · obtain rfl : s = t := Host.Outcome.next.inj (he.symm.trans h)
    exact hs
  · exact (effect_of_execIn (he.symm.trans h)).inv (inv_setPc hs _)
  · rw [← Host.Outcome.next.inj (he.symm.trans h)]
    exact inv_raiseInvalid (inv_setPc hs _) d _ _

/-- Settles O47, by the three things a step can do and the kinds of effect of an instruction. -/
theorem stepKeepsTheInvariant : Obligations.StepKeepsTheInvariant :=
  ⟨fun s t hs h => stepIn_inv dialect s t hs (step_eq_stepIn s ▸ h), stepIn_inv⟩

end Sys2Proof.Proofs
end

section
/-! What a step cannot read: the sound timer, and the stack entries at the depth and above (spec/10_state.md R21, R22, R24).
FX18, CALL and RET apart, an instruction neither reads nor writes the sound timer, the depth or the stack, so it commutes with
any change of the three. -/

open Sys2Proof Sys2Proof.Machine

namespace Sys2Proof.Proofs

/-- The state with other values in the three pieces that FX18, CALL and RET alone touch. -/
def setAside (b : Byte) (n : Fin 17) (k : Vector Word 16) (s : State) : State := ((s.setSt b).setSp n).setStack k

theorem setAside_own (s : State) : setAside s.st s.sp s.stack s = s := rfl

/-! ### The shared operations -/

section
variable (b : Byte) (n : Fin 17) (k : Vector Word 16)

theorem skipIf_setAside (c : Bool) (s : State) : (setAside b n k s).skipIf c = setAside b n k (s.skipIf c) := by
  cases c <;> rfl

theorem incrementIIn_setAside (d : Dialect) (x : Reg) (s : State) :
    (setAside b n k s).incrementIIn d x = setAside b n k (s.incrementIIn d x) := by
  simp only [State.incrementIIn_eq]
  rfl

theorem loadRegs_setAside (a : Word) (rs : List Reg) (s : State) :
    loadRegs a rs (setAside b n k s) = setAside b n k (loadRegs a rs s) := by
  induction rs generalizing a s with
  | nil => rfl
  | cons r rs ih => exact ih (a + 1) (s.setReg r (s.readByte a))

theorem storeByteIn_setAside (d : Dialect) (a : Word) (v : Byte) (s : State) :
    storeByteIn d a v (setAside b n k s) =
      match storeByteIn d a v s with
      | .done t => .done (setAside b n k t)
      | .stopped t => .stopped (setAside b n k t) := by
  unfold storeByteIn
  split
  · cases d.reservedWrite <;> rfl
  · rfl

/-- A run of stores, and what comes after it if that commutes too. -/
theorem storeBytesIn_setAside (d : Dialect) (f : State → State) (hf : ∀ s, f (setAside b n k s) = setAside b n k (f s))
    (a : Word) (vs : List Byte) (s : State) :
    (storeBytesIn d a vs (setAside b n k s)).andThen f = setAside b n k ((storeBytesIn d a vs s).andThen f) := by
  induction vs generalizing a s with
  | nil => exact hf s
  | cons v vs ih =>
    rw [storeBytesIn, storeBytesIn, storeByteIn_setAside]
    cases storeByteIn d a v s with
    | done t => exact ih (a + 1) t
    | stopped t => rfl

end

/-! ### Every instruction -/

/-- The instruction commutes with a change of the three pieces, from `s`. -/
def Blind (d : Dialect) (i : Instr) (s : State) : Prop :=
  ∃ t, execIn d i s = .next t ∧ ∀ b n k, execIn d i (setAside b n k s) = .next (setAside b n k t)

/-- A blind instruction leaves the three pieces as they were: they can be set to their own values. -/
theorem Blind.keeps {d : Dialect} {i : Instr} {s : State} (h : Blind d i s) :
    ∃ t, execIn d i s = .next t ∧ t = setAside s.st s.sp s.stack t ∧
      ∀ b n k, execIn d i (setAside b n k s) = .next (setAside b n k t) := by
  obtain ⟨t, ht, hblind⟩ := h
  have hown := hblind s.st s.sp s.stack
  rw [setAside_own, ht] at hown
  exact ⟨t, ht, Host.Outcome.next.inj hown, hblind⟩

/-- An instruction that is a function of the state is blind when the function commutes with the change. -/
theorem Blind.of_next {d : Dialect} {i : Instr} {s : State} (f : State → State) (hi : ∀ t, execIn d i t = .next (f t))
    (hf : ∀ b n k, f (setAside b n k s) = setAside b n k (f s)) : Blind d i s :=
  ⟨f s, hi s, fun b n k => by rw [hi, hf]⟩

/-- A key skip is blind, whether its register names a key or not. -/
theorem skipOnKeyIn_setAside (d : Dialect) (p : Bool) (x : Reg) (s : State) :
    ∃ t, skipOnKeyIn d p x s = .next t ∧
      ∀ b n k, skipOnKeyIn d p x (setAside b n k s) = .next (setAside b n k t) := by
  cases h : keyIndexIn d.keyIndexMode (s.reg x) with
  | some key =>
    refine ⟨_, skipOnKeyIn_some d p x s key h, fun b n k => ?_⟩
    rw [skipOnKeyIn_some d p x (setAside b n k s) key h, skipIf_setAside]
    rfl
  | none =>
    exact ⟨_, skipOnKeyIn_none d p x s h, fun b n k => skipOnKeyIn_none d p x (setAside b n k s) h⟩

/-- The three instructions that touch a piece set aside. -/
def TouchesAside (i : Instr) : Prop := i = .ret ∨ (∃ nnn, i = .call nnn) ∨ ∃ x, i = .ldSTVx x

/-- Every other instruction is blind to all three pieces. -/
theorem touchesAside_or_blind (d : Dialect) (i : Instr) (s : State) : TouchesAside i ∨ Blind d i s := by
  cases i with
  | ret => exact .inl (.inl rfl)
  | call nnn => exact .inl (.inr (.inl ⟨nnn, rfl⟩))
  | ldSTVx x => exact .inl (.inr (.inr ⟨x, rfl⟩))
  | seByte x nn => exact .inr (.of_next _ (fun _ => rfl) fun b n k => skipIf_setAside b n k _ s)
  | sneByte x nn => exact .inr (.of_next _ (fun _ => rfl) fun b n k => skipIf_setAside b n k _ s)
  | seReg x y => exact .inr (.of_next _ (fun _ => rfl) fun b n k => skipIf_setAside b n k _ s)
  | sneReg x y => exact .inr (.of_next _ (fun _ => rfl) fun b n k => skipIf_setAside b n k _ s)
  | skp x => exact .inr (skipOnKeyIn_setAside d true x s)
  | sknp x => exact .inr (skipOnKeyIn_setAside d false x s)
  | orReg x y => exact .inr (.of_next _ (fun _ => rfl) fun b n k => by split <;> rfl)
  | andReg x y => exact .inr (.of_next _ (fun _ => rfl) fun b n k => by split <;> rfl)
  | xorReg x y => exact .inr (.of_next _ (fun _ => rfl) fun b n k => by split <;> rfl)
  | addIVx x => exact .inr (.of_next _ (fun _ => rfl) fun b n k => by split <;> rfl)
  | ldVxMem x =>
    refine .inr (.of_next _ (fun _ => rfl) fun b n k => ?_)
    rw [← incrementIIn_setAside, ← loadRegs_setAside]
    rfl
  | ldBVx x => exact .inr (.of_next _ (fun _ => rfl) fun b n k => storeBytesIn_setAside b n k d id (fun _ => rfl) _ _ s)
  | ldMemVx x =>
    exact .inr (.of_next _ (fun _ => rfl) fun b n k =>
      storeBytesIn_setAside b n k d _ (incrementIIn_setAside b n k d x) _ _ s)
  | _ => exact .inr ⟨_, rfl, fun _ _ _ => rfl⟩

/-! ### Two runs side by side -/

/-- A relation on states that fixes what the engine reads, and that the execute phase and the engine's own updates keep, is
kept by a step. -/
theorem stepIn_related (d : Dialect) (R : State → State → Prop)
    (hread : ∀ s s', R s s' → s'.run = s.run ∧ s'.pc = s.pc ∧ s'.mem = s.mem)
    (hpc : ∀ s s' w, R s s' → R (s.setPc w) (s'.setPc w))
    (hinvalid : ∀ s s' w a, R s s' → R (s.raiseInvalid d w a) (s'.raiseInvalid d w a))
    (hexec : ∀ i s s', R s s' → ∃ t t', execIn d i s = .next t ∧ execIn d i s' = .next t' ∧ R t t')
    {s s' : State} (h : R s s') : ∃ t t', stepIn d s = .next t ∧ stepIn d s' = .next t' ∧ R t t' := by
  obtain ⟨hrun, hpceq, hmem⟩ := hread s s' h
  have hfetch : s'.fetch16 s'.pc = s.fetch16 s.pc := by
    simp only [State.fetch16, State.readByte_eq, hmem, hpceq]
  rcases engineStepIn_cases d (execIn d) s with ⟨hr, he⟩ | ⟨hr, i, hd, he⟩ | ⟨hr, why, hd, he⟩
  · exact ⟨s, s', he, engineStepIn_of_not_running d _ s' (hrun ▸ hr), h⟩
  · obtain ⟨t, t', ht, ht', hR⟩ := hexec i _ _ (hpc s s' (s.pc + 2) h)
    refine ⟨t, t', he.trans ht, ?_, hR⟩
    rw [stepIn, engineStepIn_instr d _ s' i (hrun.trans hr) (hfetch ▸ hd), hpceq]
    exact ht'
  · refine ⟨_, _, he, engineStepIn_invalid d _ s' why (hrun.trans hr) (hfetch ▸ hd), ?_⟩
    rw [hfetch, hpceq]
    exact hinvalid _ _ _ _ (hpc s s' _ h)

/-! ### The sound timer -/

/-- States that differ in the sound timer alone are a state and an update of it. -/
theorem exists_setSt_of_agreeButSt {s s' : State} (h : AgreeButSt s s') : ∃ b, s' = s.setSt b :=
  ⟨s'.st, (congrArg (fun t : State => t.setSt s'.st) h).symm⟩

/-- A blind instruction commutes with a change of the sound timer. -/
theorem Blind.setSt {d : Dialect} {i : Instr} {s : State} (h : Blind d i s) (b : Byte) :
    ∃ t, execIn d i s = .next t ∧ execIn d i (s.setSt b) = .next (t.setSt b) := by
  obtain ⟨t, ht, hsame, hblind⟩ := h.keeps
  refine ⟨t, ht, (hblind b s.sp s.stack).trans ?_⟩
  rw [hsame]
  rfl

/-- RET commutes with a change of the sound timer. -/
theorem execRet_setSt (s : State) (b : Byte) : ∃ t, execRet s = .next t ∧ execRet (s.setSt b) = .next (t.setSt b) := by
  rcases sp_eq_zero_or_succ s with h | ⟨k, hk, h⟩
  · exact ⟨_, execRet_empty s h, execRet_empty (s.setSt b) h⟩
  · exact ⟨_, execRet_of_pos s k hk h, execRet_of_pos (s.setSt b) k hk h⟩

/-- CALL commutes with a change of the sound timer. -/
theorem execCall_setSt (nnn : Addr12) (s : State) (b : Byte) :
    ∃ t, execCall nnn s = .next t ∧ execCall nnn (s.setSt b) = .next (t.setSt b) := by
  rcases sp_lt_or_full s with h | h
  · exact ⟨_, execCall_of_lt nnn s _ h rfl, execCall_of_lt nnn (s.setSt b) _ h rfl⟩
  · exact ⟨_, execCall_full nnn s h, execCall_full nnn (s.setSt b) h⟩

/-- From states that differ in the sound timer alone an instruction reaches such states; FX18 reaches equal ones. -/
theorem execIn_agreeButSt (d : Dialect) (i : Instr) {s s' : State} (h : AgreeButSt s s') :
    ∃ t t', execIn d i s = .next t ∧ execIn d i s' = .next t' ∧ AgreeButSt t t' := by
  obtain ⟨b, rfl⟩ := exists_setSt_of_agreeButSt h
  rcases touchesAside_or_blind d i s with (rfl | ⟨nnn, rfl⟩ | ⟨x, rfl⟩) | hblind
  · obtain ⟨t, ht, ht'⟩ := execRet_setSt s b
    exact ⟨t, _, ht, ht', rfl⟩
  · obtain ⟨t, ht, ht'⟩ := execCall_setSt nnn s b
    exact ⟨t, _, ht, ht', rfl⟩
  · exact ⟨_, _, rfl, rfl, rfl⟩
  · obtain ⟨t, ht, ht'⟩ := hblind.setSt b
    exact ⟨t, _, ht, ht', rfl⟩

/-- From states that differ in the sound timer alone a step reaches such states. -/
theorem stepIn_agreeButSt (d : Dialect) {s s' : State} (h : AgreeButSt s s') :
    ∃ t t', stepIn d s = .next t ∧ stepIn d s' = .next t' ∧ AgreeButSt t t' := by
  refine stepIn_related d AgreeButSt ?_ ?_ ?_ (fun i _ _ => execIn_agreeButSt d i) h
  · intro s s' h
    obtain ⟨b, rfl⟩ := exists_setSt_of_agreeButSt h
    exact ⟨rfl, rfl, rfl⟩
  · intro s s' w h
    obtain ⟨b, rfl⟩ := exists_setSt_of_agreeButSt h
    rfl
  · intro s s' w a h
    obtain ⟨b, rfl⟩ := exists_setSt_of_agreeButSt h
    simp only [State.raiseInvalid_eq]
    rfl

/-- Settles O52: the two runs go side by side, and no instruction lets the difference out of the sound timer. -/
theorem noInstructionReadsTheSoundTimer : Obligations.NoInstructionReadsTheSoundTimer := by
  intro d s t u b ht hu
  obtain ⟨t', u', ht', hu', h⟩ := stepIn_agreeButSt d (s := s) (s' := s.setSt b) rfl
  obtain rfl : t' = t := Host.Outcome.next.inj (ht'.symm.trans ht)
  obtain rfl : u' = u := Host.Outcome.next.inj (hu'.symm.trans hu)
  exact h

/-! ### Dead stack entries -/

/-- The stack holds the live entries of the state. -/
def HoldsLive (k : Vector Word 16) (s : State) : Prop := ∀ j : Fin 16, j.val < s.sp.val → k[j.val] = s.stack[j.val]

/-- States that differ in dead entries alone are a state and another stack with its live entries. -/
theorem exists_setStack_of_agreeOnLiveStack {s s' : State} (h : AgreeOnLiveStack s s') :
    ∃ k, s' = s.setStack k ∧ HoldsLive k s :=
  ⟨s'.stack, h⟩

theorem HoldsLive.agree {k : Vector Word 16} {s : State} (h : HoldsLive k s) : AgreeOnLiveStack s (s.setStack k) :=
  ⟨rfl, h⟩

/-- A blind instruction commutes with a change of the stack, whose live entries stay the same. -/
theorem Blind.setStack {d : Dialect} {i : Instr} {s : State} (h : Blind d i s) (k : Vector Word 16) (hk : HoldsLive k s) :
    ∃ t, execIn d i s = .next t ∧ execIn d i (s.setStack k) = .next (t.setStack k) ∧ HoldsLive k t := by
  obtain ⟨t, ht, hsame, hblind⟩ := h.keeps
  refine ⟨t, ht, (hblind s.st s.sp k).trans ?_, ?_⟩
  · rw [hsame]
    rfl
  · rw [hsame]
    exact hk

/-- RET reads a live entry, and leaves fewer live. -/
theorem execRet_setStack {s : State} {k : Vector Word 16} (hk : HoldsLive k s) :
    ∃ t, execRet s = .next t ∧ execRet (s.setStack k) = .next (t.setStack k) ∧ HoldsLive k t := by
  rcases sp_eq_zero_or_succ s with h | ⟨n, hn, h⟩
  · exact ⟨_, execRet_empty s h, execRet_empty (s.setStack k) h, hk⟩
  · have htop : k[n] = s.stack[n] := hk ⟨n, hn⟩ (h ▸ Nat.lt_succ_self n)
    refine ⟨_, execRet_of_pos s n hn h, ?_, fun j hj => hk j (h ▸ Nat.lt_succ_of_lt hj)⟩
    rw [execRet_of_pos (s.setStack k) n hn h, State.setStack_stack, htop]
    rfl

/-- CALL writes the first dead entry, which becomes live, with the same address in both. -/
theorem execCall_setStack (nnn : Addr12) {s : State} {k : Vector Word 16} (hk : HoldsLive k s) :
    ∃ t k', execCall nnn s = .next t ∧ execCall nnn (s.setStack k) = .next (t.setStack k') ∧ HoldsLive k' t := by
  rcases sp_lt_or_full s with h | h
  · refine ⟨_, k.set s.sp.val s.pc h, execCall_of_lt nnn s _ h rfl, execCall_of_lt nnn (s.setStack k) _ h rfl,
      fun j hj => ?_⟩
    simp only [State.setPc_stack, State.setSp_stack, State.setStack_stack, Vector.getElem_set]
    split
    · rfl
    · next hne => exact hk j (Nat.lt_of_le_of_ne (Nat.le_of_lt_succ hj) (Ne.symm hne))
  · exact ⟨_, k, execCall_full nnn s h, execCall_full nnn (s.setStack k) h, hk⟩

/-- From states that differ in dead entries alone an instruction reaches such states. -/
theorem execIn_agreeOnLiveStack (d : Dialect) (i : Instr) {s s' : State} (h : AgreeOnLiveStack s s') :
    ∃ t t', execIn d i s = .next t ∧ execIn d i s' = .next t' ∧ AgreeOnLiveStack t t' := by
  obtain ⟨k, rfl, hk⟩ := exists_setStack_of_agreeOnLiveStack h
  rcases touchesAside_or_blind d i s with (rfl | ⟨nnn, rfl⟩ | ⟨x, rfl⟩) | hblind
  · obtain ⟨t, ht, ht', hk'⟩ := execRet_setStack hk
    exact ⟨t, _, ht, ht', hk'.agree⟩
  · obtain ⟨t, k', ht, ht', hk'⟩ := execCall_setStack nnn hk
    exact ⟨t, _, ht, ht', hk'.agree⟩
  · exact ⟨_, _, rfl, rfl, rfl, hk⟩
  · obtain ⟨t, ht, ht', hk'⟩ := hblind.setStack k hk
    exact ⟨t, _, ht, ht', hk'.agree⟩

/-- From states that differ in dead entries alone a step reaches such states. -/
theorem stepIn_agreeOnLiveStack (d : Dialect) {s s' : State} (h : AgreeOnLiveStack s s') :
    ∃ t t', stepIn d s = .next t ∧ stepIn d s' = .next t' ∧ AgreeOnLiveStack t t' := by
  refine stepIn_related d AgreeOnLiveStack ?_ ?_ ?_ (fun i _ _ => execIn_agreeOnLiveStack d i) h
  · intro s s' h
    obtain ⟨k, rfl, -⟩ := exists_setStack_of_agreeOnLiveStack h
    exact ⟨rfl, rfl, rfl⟩
  · intro s s' w h
    obtain ⟨k, rfl, hk⟩ := exists_setStack_of_agreeOnLiveStack h
    exact ⟨rfl, hk⟩
  · intro s s' w a h
    obtain ⟨k, rfl, hk⟩ := exists_setStack_of_agreeOnLiveStack h
    simp only [State.raiseInvalid_eq]
    exact ⟨rfl, hk⟩

/-- Settles O53: the two runs go side by side, CALL and RET being the only instructions that touch the stack. -/
theorem deadStackEntriesAreUnobservable : Obligations.DeadStackEntriesAreUnobservable := by
  intro d s s' t h ht
  obtain ⟨u, u', hu, hu', hR⟩ := stepIn_agreeOnLiveStack d h
  obtain rfl : u = t := Host.Outcome.next.inj (hu.symm.trans ht)
  exact ⟨u', hu', hR⟩

end Sys2Proof.Proofs
end

section
/-! The register file, the timers and the reset state (spec/10_state.md R15, R25, R34). -/

open Sys2Proof Sys2Proof.Machine

namespace Sys2Proof.Proofs

/-! ### The timers -/

/-- A timer's value after a tick, clamped at 0 (R120). -/
theorem countdown_toNat (b : Byte) : (countdown b).toNat = b.toNat - 1 := by
  unfold countdown
  split
  · next h => rw [h]; rfl
  · next h =>
    have hpos : b.toNat ≠ 0 := fun h0 => h (BitVec.eq_of_toNat_eq h0)
    bv_omega

theorem tickTimers_dt (s : State) : (tickTimers s).dt = countdown s.dt := by
  unfold tickTimers
  split <;> rfl

theorem tickTimers_st (s : State) : (tickTimers s).st = countdown s.st := by
  unfold tickTimers
  split <;> rfl

/-- A tick beeps when it takes the sound timer from 1 to 0, and never otherwise (R121). -/
theorem tickTimers_trace (s : State) :
    (tickTimers s).trace = if s.st.toNat = 1 then .beep :: s.trace else s.trace := by
  have h1 : s.st = 1 ↔ s.st.toNat = 1 := BitVec.toNat_inj.symm
  unfold tickTimers
  simp only [← h1]
  split <;> rfl

theorem tickTimers_iterate_dt (n : Nat) (s : State) : (tickTimers^[n] s).dt.toNat = s.dt.toNat - n := by
  induction n with
  | zero => rfl
  | succ n ih => rw [Function.iterate_succ_apply', tickTimers_dt, countdown_toNat, ih, Nat.sub_sub]

theorem tickTimers_iterate_st (n : Nat) (s : State) : (tickTimers^[n] s).st.toNat = s.st.toNat - n := by
  induction n with
  | zero => rfl
  | succ n ih => rw [Function.iterate_succ_apply', tickTimers_st, countdown_toNat, ih, Nat.sub_sub]

/-- Of `n` ticks the one that finds the sound timer at 1 beeps, if there is one among them. -/
theorem tickTimers_iterate_trace (n : Nat) (s : State) :
    (tickTimers^[n] s).trace = if 0 < s.st.toNat ∧ s.st.toNat ≤ n then .beep :: s.trace else s.trace := by
  induction n with
  | zero => rw [if_neg (by omega)]; rfl
  | succ n ih =>
    rw [Function.iterate_succ_apply', tickTimers_trace, tickTimers_iterate_st, ih]
    by_cases hout : 0 < s.st.toNat ∧ s.st.toNat ≤ n
    · rw [if_neg (by omega), if_pos hout, if_pos (by omega)]
    · by_cases hnow : s.st.toNat = n + 1
      · rw [if_pos (by omega), if_neg hout, if_pos (by omega)]
      · rw [if_neg (by omega), if_neg hout, if_neg (by omega)]

/-- Settles O41, by induction on the number of ticks. -/
theorem ticksClampAndBeepOnce : Obligations.TicksClampAndBeepOnce := fun n s =>
  ⟨tickTimers_iterate_dt n s, tickTimers_iterate_st n s, tickTimers_iterate_trace n s⟩

/-! ### The flag register -/

/-- The flag register holds the flag whatever the destination was: it is written last (R15). -/
theorem setRegFlag_reg_flagReg (s : State) (x : Reg) (b : Byte) (f : Bool) :
    (s.setRegFlag x b f).reg flagReg = flagByte f := by
  simp

theorem flagByte_decide (p : Prop) [Decidable p] : flagByte (decide p) = if p then 1 else 0 := by
  simp [flagByte]

/-- A bit's value, 0 or 1, is that of its flag. -/
theorem flagByte_eq_one {n : Nat} (h : n < 2) : flagByte (decide (n = 1)) = BitVec.ofNat 8 n := by
  rw [flagByte_decide]
  interval_cases n <;> rfl

/-- 8XY6's flag is the source modulo 2 (R92). -/
theorem flagByte_shiftedOutRight (a : Byte) : flagByte (shiftedOutRight a) = BitVec.ofNat 8 (a.toNat % 2) := by
  rw [shiftedOutRight, BitVec.getLsbD, Nat.testBit_zero, flagByte_eq_one (Nat.mod_lt _ Nat.two_pos)]

/-- 8XYE's flag is the source's upper half or not (R94). -/
theorem flagByte_shiftedOutLeft (a : Byte) : flagByte (shiftedOutLeft a) = BitVec.ofNat 8 (a.toNat / 128) := by
  have hbit : a.toNat / 2 ^ 7 % 2 = a.toNat / 128 := Nat.mod_eq_of_lt (by omega)
  rw [shiftedOutLeft, BitVec.getLsbD, Nat.testBit_eq_decide_div_mod_eq, hbit, flagByte_eq_one (by omega)]

/-- Settles O26: every one of the five writes the flag after its result, and computes it from the old operands. -/
theorem flagIsWrittenLast : Obligations.FlagIsWrittenLast := by
  intro y s
  refine ⟨⟨_, rfl, ?_⟩, ⟨_, rfl, ?_⟩, ⟨_, rfl, ?_⟩, fun d => ⟨_, _, rfl, rfl, ?_, ?_⟩⟩
  · exact (setRegFlag_reg_flagReg _ _ _ _).trans (flagByte_decide _)
  · exact (setRegFlag_reg_flagReg _ _ _ _).trans (flagByte_decide _)
  · exact (setRegFlag_reg_flagReg _ _ _ _).trans (flagByte_decide _)
  · exact (setRegFlag_reg_flagReg _ _ _ _).trans (flagByte_shiftedOutRight _)
  · exact (setRegFlag_reg_flagReg _ _ _ _).trans (flagByte_shiftedOutLeft _)

/-! ### The reset state -/

theorem reset_reg (r : Reg) : State.reset.reg r = 0 := by
  simp [State.reg, State.reset]

theorem reset_keyAt (k : Key) : State.reset.keyAt k = false := by
  simp [State.keyAt, State.reset]

/-- Memory at reset holds the font and zeros (R33, R129). -/
theorem reset_mem_read (a : Nat) : State.reset.mem.read a = fontData.getD a 0 := by
  simp [State.reset, Memory.read, Memory.unlisted, fontBase]

theorem fontData_length : fontData.length = 80 := rfl

/-- Settles O46, piece by piece. -/
theorem resetGivesTheResetState : Obligations.ResetGivesTheResetState :=
  ⟨reset_reg, rfl, rfl, rfl, rfl, rfl, reset_keyAt, pixel_clearGrid, rfl, fun j _ => reset_mem_read j,
    fun a ha => (reset_mem_read a).trans (List.getD_eq_default _ _ (fontData_length ▸ ha)), fun _ => rfl⟩

end Sys2Proof.Proofs
end

section
/-! Memory (spec/20_memory.md): the fetch, the stores that drop their writes to the reserved region or stop at it, and the
reserved bytes that stay zero (R36, R38 to R40, R47, R50). -/

open Sys2Proof Sys2Proof.Machine

namespace Sys2Proof.Proofs

/-! ### The two instructions that store -/

/-- FX33 is a run of stores of the digits (R101). -/
theorem execIn_ldBVx (d : Dialect) (x : Reg) (s : State) :
    execIn d (.ldBVx x) s = .next ((storeBytesIn d s.i (decimalDigits (s.reg x)) s).andThen id) := rfl

/-- FX55 is a run of stores of the registers and the increment of `I` (R102). -/
theorem execIn_ldMemVx (d : Dialect) (x : Reg) (s : State) :
    execIn d (.ldMemVx x) s =
      .next ((storeBytesIn d s.i ((regsTo x).map s.reg) s).andThen (fun t => t.incrementIIn d x)) := rfl

/-! ### The reserved bytes -/

/-- The bytes between the font and the program-load offset are zero in the memory (R39). -/
def MemReservedIsZero (m : Memory) : Prop := ∀ a, fontBase + fontBytes ≤ a → a < reservedTop → m.read a = 0

/-- The statement's predicate speaks of memory alone. -/
theorem reservedIsZero_iff (s : State) : ReservedIsZero s ↔ MemReservedIsZero s.mem := Iff.rfl

/-- A byte written at `RESERVED_TOP` or above is none of the reserved ones. -/
theorem MemReservedIsZero.write {m : Memory} (h : MemReservedIsZero m) {ea : Nat} (hea : reservedTop ≤ ea) (b : Byte) :
    MemReservedIsZero (m.write ea b) := by
  intro a hlow hhigh
  rw [Memory.read_write, if_neg (by omega)]
  exact h a hlow hhigh

/-- A copy that lies above the reserved bytes, or ends below them, leaves them zero. -/
theorem MemReservedIsZero.writeList {m : Memory} (h : MemReservedIsZero m) {ea : Nat} {bs : List Byte}
    (hea : reservedTop ≤ ea ∨ ea + bs.length ≤ fontBase + fontBytes) : MemReservedIsZero (m.writeList ea bs) := by
  intro a hlow hhigh
  rw [Memory.read_writeList, if_neg (by omega)]
  exact h a hlow hhigh

/-- Reset memory has the bytes after the font zero (R129). -/
theorem reset_memReservedIsZero : MemReservedIsZero State.reset.mem := fun a hlow _ =>
  (reset_mem_read a).trans (List.getD_eq_default _ _ (fontData_length ▸ hlow))

/-- A run of stores in the default dialect leaves the reserved bytes zero: a write below `RESERVED_TOP` is dropped (R40). -/
theorem storeBytesIn_memReservedIsZero (bs : List Byte) (a : Word) {s : State} (h : MemReservedIsZero s.mem)
    (f : State → State) (hf : ∀ t, (f t).mem = t.mem) :
    MemReservedIsZero ((storeBytesIn dialect a bs s).andThen f).mem := by
  refine storeBytesIn_mem dialect MemReservedIsZero (fun m a b ha hm => ?_) bs a s h f hf
  have hdrop : dialect.reservedWrite ≠ .allow := by decide
  exact hm.write (ha.resolve_right hdrop) b

/-- Every instruction in the default dialect leaves the reserved bytes zero: the two that write memory store by that rule. -/
theorem execIn_memReservedIsZero {i : Instr} {s t : State} (h : MemReservedIsZero s.mem)
    (ht : execIn dialect i s = .next t) : MemReservedIsZero t.mem := by
  rcases (effect_of_execIn ht).mem_same_or with hsame | ⟨x, rfl | rfl⟩
  · rwa [hsame]
  · rw [execIn_ldBVx] at ht
    rw [← Host.Outcome.next.inj ht]
    exact storeBytesIn_memReservedIsZero _ _ h id fun _ => rfl
  · rw [execIn_ldMemVx] at ht
    rw [← Host.Outcome.next.inj ht]
    exact storeBytesIn_memReservedIsZero _ _ h _ fun t => by rw [State.incrementIIn_eq, State.setI_mem]

/-- The report of an invalid word leaves memory alone. -/
theorem raiseInvalid_mem (s : State) (d : Dialect) (w a : Word) : (s.raiseInvalid d w a).mem = s.mem := by
  rw [State.raiseInvalid_eq, State.emit_mem, State.setRun_mem]

theorem stepIn_memReservedIsZero {s t : State} (h : MemReservedIsZero s.mem) (ht : stepIn dialect s = .next t) :
    MemReservedIsZero t.mem := by
  rcases engineStepIn_cases dialect (execIn dialect) s with ⟨-, he⟩ | ⟨-, i, -, he⟩ | ⟨-, why, -, he⟩
  · obtain rfl : s = t := Host.Outcome.next.inj (he.symm.trans ht)
    exact h
  · exact execIn_memReservedIsZero (s := s.setPc (s.pc + 2)) h (he.symm.trans ht)
  · rw [← Host.Outcome.next.inj (he.symm.trans ht), raiseInvalid_mem]
    exact h

/-! ### The host's calls and memory -/

theorem tickTimers_mem (s : State) : (tickTimers s).mem = s.mem := by
  unfold tickTimers
  split <;> rfl

theorem completeKeyWait_mem (k : Key) (s : State) : (completeKeyWait k s).mem = s.mem := by
  unfold completeKeyWait
  split <;> rfl

theorem pressKey_mem (k : Key) (p : Bool) (s : State) : (pressKey k p s).mem = s.mem := by
  unfold pressKey
  split
  · exact completeKeyWait_mem k _
  · rfl

theorem setKey_mem (index : Int) (p : Bool) (s : State) : (setKey index p s).mem = s.mem := by
  unfold setKey
  split
  · exact pressKey_mem _ p s
  · rfl

/-- What a load makes of memory: nothing when it is refused, the program's copy, or that and the font's copy of the font's
length (R131, R132). -/
theorem loadProgram_mem_cases (bytes : List Byte) (font : Option (List Byte)) (s : State) :
    (loadProgram bytes font s).mem = s.mem ∨
    (loadProgram bytes font s).mem = s.mem.writeList loadAddr.toNat bytes ∨
    ∃ f, f.length = fontBytes ∧
      (loadProgram bytes font s).mem = (s.mem.writeList loadAddr.toNat bytes).writeList fontBase f := by
  unfold loadProgram
  split
  · exact .inl rfl
  · cases font with
    | none => exact .inr (.inl rfl)
    | some f =>
      by_cases hf : f.length = fontBytes
      · exact .inr (.inr ⟨f, hf, by simp only [if_pos hf, State.setMem_mem]⟩)
      · exact .inl (by simp only [if_neg hf, State.raise_eq, State.emit_mem])

/-- A load leaves the reserved bytes zero: the program goes above them and the font below. -/
theorem loadProgram_memReservedIsZero (bytes : List Byte) (font : Option (List Byte)) {s : State}
    (h : MemReservedIsZero s.mem) : MemReservedIsZero (loadProgram bytes font s).mem := by
  have hprogram : MemReservedIsZero (s.mem.writeList loadAddr.toNat bytes) := h.writeList (.inl (Nat.le_refl _))
  rcases loadProgram_mem_cases bytes font s with hm | hm | ⟨f, hf, hm⟩ <;> rw [hm]
  · exact h
  · exact hprogram
  · exact hprogram.writeList (.inr (hf ▸ Nat.le_refl _))

/-- Every call of the host in the default dialect leaves the reserved bytes zero. -/
theorem performIn_reservedIsZero (c : HostCall) (s t : State) (h : ReservedIsZero s)
    (ht : performIn dialect c s = .next t) : ReservedIsZero t := by
  rw [reservedIsZero_iff] at h ⊢
  cases c with
  | step => exact stepIn_memReservedIsZero h ht
  | tickTimers =>
    rw [← Host.Outcome.next.inj ht, tickTimers_mem]
    exact h
  | setKey index p =>
    rw [← Host.Outcome.next.inj ht, setKey_mem]
    exact h
  | getFramebuffer =>
    rw [← Host.Outcome.next.inj ht]
    exact h
  | loadProgram bytes font =>
    rw [← Host.Outcome.next.inj ht]
    exact loadProgram_memReservedIsZero bytes font h
  | reset =>
    rw [← Host.Outcome.next.inj ht]
    exact reset_memReservedIsZero

theorem reachableIn_reservedIsZero {s : State} (h : ReachableIn dialect s) : ReservedIsZero s := by
  induction h with
  | reset => exact reset_memReservedIsZero
  | call c s t _ ht ih => exact performIn_reservedIsZero c s t ih ht

/-- Settles O50: every call keeps the bytes zero, and so they are in every reachable state by induction on the calls. -/
theorem reservedBytesStayZero : Obligations.ReservedBytesStayZero :=
  ⟨performIn_reservedIsZero, fun _ => reachableIn_reservedIsZero⟩

/-! ### No step faults -/

theorem execIn_next (d : Dialect) (i : Instr) (s : State) : ∃ t, execIn d i s = .next t := by
  obtain ⟨t, ht, -⟩ := execIn_effect d i s
  exact ⟨t, ht⟩

theorem stepIn_next (d : Dialect) (s : State) : ∃ t, stepIn d s = .next t := by
  rcases engineStepIn_cases d (execIn d) s with ⟨-, he⟩ | ⟨-, i, -, he⟩ | ⟨-, why, -, he⟩
  · exact ⟨_, he⟩
  · obtain ⟨t, ht⟩ := execIn_next d i (s.setPc (s.pc + 2))
    exact ⟨t, he.trans ht⟩
  · exact ⟨_, he⟩

/-- Settles O11: every kind of effect is a next state, and so are the two other things a step can do. -/
theorem everyStepAnswersNext : Obligations.EveryStepAnswersNext :=
  ⟨fun i s => exec_eq_execIn i s ▸ execIn_next dialect i s, fun s => step_eq_stepIn s ▸ stepIn_next dialect s,
    execIn_next, stepIn_next⟩

/-! ### The fetch -/

/-- The value of two bytes read as one big-endian word (R38). -/
theorem joinBytes_toNat (hi lo : Byte) : (joinBytes hi lo).toNat = 256 * hi.toNat + lo.toNat := by
  rw [joinBytes, BitVec.toNat_append, ← Nat.shiftLeft_add_eq_or_of_lt lo.isLt, Nat.shiftLeft_eq, Nat.mul_comm]

/-- Settles O6: the low byte's address is reduced on its own, the 16-bit wrap of `a + 1` being a multiple of 4096. -/
theorem fetchIsBigEndian : Obligations.FetchIsBigEndian := by
  intro s a
  have hlow : effective (a + 1) = (a.toNat + 1) % 4096 := effective_add a 1
  rw [State.fetch16, joinBytes_toNat, State.readByte_eq, State.readByte_eq, hlow]
  rfl

/-! ### The bytes that FX33 and FX55 store -/

theorem length_decimalDigits (b : Byte) : (decimalDigits b).length = 3 := rfl

/-- The `k`-th digit is the value R101 gives it. -/
theorem getElem_decimalDigits (b : Byte) (k : Nat) (hk : k < (decimalDigits b).length) :
    (decimalDigits b)[k] = BitVec.ofNat 8 ([b.toNat / 100, b.toNat / 10 % 10, b.toNat % 10].getD k 0) := by
  rw [length_decimalDigits] at hk
  interval_cases k <;> rfl

theorem length_map_regsTo (s : State) (x : Reg) : ((regsTo x).map s.reg).length = x.val + 1 := by
  rw [List.length_map, length_regsTo]

/-- Register `r` is the byte that FX55 stores `r` addresses after `I`. -/
theorem getElem_map_regsTo (s : State) (x r : Reg) (hr : r.val < ((regsTo x).map s.reg).length) :
    ((regsTo x).map s.reg)[r.val] = s.reg r := by
  rw [List.getElem_map]
  exact congrArg s.reg (Fin.ext (getElem_regsTo x r.val (by simpa using hr)))

/-! ### The frame of a run of stores -/

theorem not_mem_window {ea : Nat} {a : Word} {n : Nat} :
    ea ∉ window a n ↔ ∀ k, k < n → ea ≠ effective (a + BitVec.ofNat 16 k) := by
  simp only [window, List.mem_map, List.mem_range, not_exists, not_and, ne_comm (a := ea), ne_eq]

/-- A change of memory alone. -/
theorem frame_setMem (s : State) (m : Memory) (stored : List Nat)
    (h : ∀ c : Word, effective c ∉ stored → m.read (effective c) = s.readByte c) : Frame [] [] stored s (s.setMem m) := by
  refine ⟨fun r _ => rfl, fun p _ => ?_, h⟩
  cases p <;> rfl

/-- A change of memory and a fatal error. -/
theorem frame_setMem_raiseFatal (s : State) (m : Memory) (e : Error) (stored : List Nat)
    (h : ∀ c : Word, effective c ∉ stored → m.read (effective c) = s.readByte c) :
    Frame [] [.run, .trace] stored s ((s.setMem m).raiseFatal e) := by
  refine ⟨fun r _ => rfl, fun p hp => ?_, h⟩
  cases p with
  | run => exact absurd (by decide) hp
  | trace => exact absurd (by decide) hp
  | _ => rfl

/-! ### Stores that drop the reserved writes -/

/-- A run of stores in the default dialect changes memory alone: inside its window the bytes that are not reserved, outside it
none (R40; decision D7). -/
theorem storeBytesIn_default (bs : List Byte) (hl : bs.length ≤ 4096) (a : Word) (s : State) :
    ∃ m, storeBytesIn dialect a bs s = .done (s.setMem m) ∧ Frame [] [] (window a bs.length) s (s.setMem m) ∧
      ∀ k (hk : k < bs.length), (s.setMem m).readByte (a + BitVec.ofNat 16 k) =
        if 0x200 ≤ (a.toNat + k) % 4096 then bs[k] else s.readByte (a + BitVec.ofNat 16 k) := by
  have hfault : dialect.reservedWrite ≠ .fault := by decide
  have hallow : dialect.reservedWrite ≠ .allow := by decide
  obtain ⟨m, hm⟩ := storeBytesIn_done dialect hfault a bs s
  refine ⟨m, hm, frame_setMem s m _ fun c hc => ?_, fun k hk => ?_⟩
  · have hout := storeBytesIn_readByte dialect bs a s id (fun _ => rfl) c (not_mem_window.mp hc)
    rwa [hm] at hout
  · have hin := storeBytesIn_readByte_at dialect hfault id (fun _ => rfl) bs hl a s k hk
    simp only [hm, effective_add, hallow, or_false] at hin
    exact hin

/-- FX33 in the default dialect (R101). -/
theorem execLdBVx_default (x : Reg) (s : State) :
    ∃ t, exec (.ldBVx x) s = .next t ∧ Frame [] [] (window s.i 3) s t ∧
      ∀ k : Nat, k < 3 → t.readByte (s.i + BitVec.ofNat 16 k) =
        if 0x200 ≤ (s.i.toNat + k) % 4096 then
          BitVec.ofNat 8 ([(s.reg x).toNat / 100, (s.reg x).toNat / 10 % 10, (s.reg x).toNat % 10].getD k 0)
        else s.readByte (s.i + BitVec.ofNat 16 k) := by
  obtain ⟨m, hm, hframe, hread⟩ := storeBytesIn_default (decimalDigits (s.reg x)) (by simp [length_decimalDigits]) s.i s
  refine ⟨s.setMem m, ?_, hframe, fun k hk => ?_⟩
  · rw [exec_eq_execIn, execIn_ldBVx, hm]
    rfl
  · rw [hread k ((length_decimalDigits (s.reg x)).symm ▸ hk), getElem_decimalDigits]

/-- FX55 in the default dialect (R102). -/
theorem execLdMemVx_default (x : Reg) (s : State) :
    ∃ t, exec (.ldMemVx x) s = .next t ∧ Frame [] [] (window s.i (x.val + 1)) s t ∧
      ∀ r : Reg, r ≤ x → t.readByte (s.i + BitVec.ofNat 16 r.val) =
        if 0x200 ≤ (s.i.toNat + r.val) % 4096 then s.reg r else s.readByte (s.i + BitVec.ofNat 16 r.val) := by
  have hlen := length_map_regsTo s x
  obtain ⟨m, hm, hframe, hread⟩ := storeBytesIn_default ((regsTo x).map s.reg) (by omega) s.i s
  refine ⟨s.setMem m, ?_, hlen ▸ hframe, fun r hr => ?_⟩
  · rw [exec_eq_execIn, execIn_ldMemVx, hm]
    rfl
  · rw [hread r.val (hlen ▸ Nat.lt_succ_of_le hr), getElem_map_regsTo]

/-- Settles O30. -/
theorem defaultStoresDropReservedWrites : Obligations.DefaultStoresDropReservedWrites := fun x s =>
  ⟨execLdBVx_default x s, execLdMemVx_default x s⟩

/-- Settles O35: byte `k` of the store is at the address that byte `k` of the fetch is read from. -/
theorem storedWordIsFetchedNext : Obligations.StoredWordIsFetchedNext := by
  intro x s hx hi hlow hhigh
  obtain ⟨t, ht, ⟨-, hparts, -⟩, hread⟩ := execLdMemVx_default x s
  have hpc : t.pc = s.pc := hparts .pc (by simp)
  have hbyte : ∀ r : Reg, r ≤ x → r.val ≤ 1 → t.mem.read ((s.pc.toNat + r.val) % 4096) = s.reg r := by
    intro r hr hr1
    have hstored := hread r hr
    rw [if_pos (by omega), State.readByte_eq, effective_add] at hstored
    rwa [show (s.pc.toNat + r.val) % 4096 = (s.i.toNat + r.val) % 4096 by omega]
  refine ⟨t, ht, hpc, ?_⟩
  rw [hpc, fetchIsBigEndian t s.pc, ← hbyte 0 (Fin.zero_le x) (by decide), ← hbyte 1 hx (by decide)]
  rfl

/-! ### Stores that stop at a reserved address -/

/-- A run of stores that stops at address `j` from `a` on, the first reserved one (R40, R72). -/
theorem storeBytesIn_faults (d : Dialect) (hd : d.reservedWrite = .fault) (bs : List Byte) (a : Word) (s : State)
    (f : State → State) (j : Nat) (hj : j < bs.length) (hj' : j ≤ 4096) (hlow : (a.toNat + j) % 4096 < 0x200)
    (hhigh : ∀ k, k < j → 0x200 ≤ (a.toNat + k) % 4096) :
    ∃ t, (storeBytesIn d a bs s).andThen f = t ∧ Frame [] [.run, .trace] (window a j) s t ∧
      t.run = .halted .reservedWrite ∧
      t.trace = .raised (.reservedWrite (BitVec.ofNat 16 ((a.toNat + j) % 4096))) :: s.trace ∧
      ∀ k (hk : k < j), t.readByte (a + BitVec.ofNat 16 k) = bs[k] := by
  obtain ⟨m, hm, hbefore, hrest⟩ := storeBytesIn_stops d hd bs a s j hj hj' (by rwa [effective_add])
    fun k hk => by
      rw [effective_add]
      exact hhigh k hk
  rw [effective_add] at hm
  rw [hm]
  exact ⟨_, rfl, frame_setMem_raiseFatal s m _ _ fun c hc => hrest c (not_mem_window.mp hc), rfl, rfl, hbefore⟩

/-- Settles O31: both instructions are such a run of stores, of three digits or of the registers up to `x`. -/
theorem reservedFaultStopsTheStore : Obligations.ReservedFaultStopsTheStore := by
  refine ⟨fun d x j s hd hj hlow hhigh => ?_, fun d x j s hd hj hlow hhigh => ?_⟩
  · obtain ⟨t, ht, hframe, hrun, htrace, hread⟩ :=
      storeBytesIn_faults d hd (decimalDigits (s.reg x)) s.i s id j hj (by omega) hlow hhigh
    refine ⟨t, by rw [execIn_ldBVx, ht], hframe, hrun, htrace, fun k hk => ?_⟩
    rw [hread k hk, getElem_decimalDigits]
  · have hlen := length_map_regsTo s x
    obtain ⟨t, ht, hframe, hrun, htrace, hread⟩ :=
      storeBytesIn_faults d hd ((regsTo x).map s.reg) s.i s (fun t => t.incrementIIn d x) j.val
        (hlen ▸ Nat.lt_succ_of_le hj) (by omega) hlow fun k hk => hhigh ⟨k, by omega⟩ hk
    refine ⟨t, by rw [execIn_ldMemVx, ht], hframe, hrun, htrace, fun r hr => ?_⟩
    rw [hread r.val hr, getElem_map_regsTo]

end Sys2Proof.Proofs
end

section
/-! The encoding (spec/30_encoding.md R51 to R60, spec/40_engine.md R66, R67): decoder and encoder are inverse, the decoder
rejects R60's words and reads the rows of spec/opcode_table.json. -/

open Sys2Proof

namespace Sys2Proof.Proofs

/-- Settles O1: each clause is an evaluation of the decoder. -/
theorem writtenWordsDecode : Obligations.WrittenWordsDecode := by
  unfold Obligations.WrittenWordsDecode
  decide

/-! ### Decoding an encoded instruction -/

/-- Decoding gives the instruction of an encoded word back, format by format of R52: the decoder sees only fields, and these
are the ones the word was made of. -/
@[simp] theorem decodeWord_encode (strict : Bool) (i : Instr) : decodeWord strict (encode i) = .instr i := by
  cases i with
  | cls | ret => rfl
  | jp | call | ldI | jpV0 => simp [encode, decodeWord]
  | seByte | sneByte | ldByte | addByte | rnd => simp [encode, decodeWord]
  | skp | sknp => simp [encode, decodeWord, decodeKey]
  | ldVxDT | ldVxK | ldDTVx | ldSTVx | addIVx | ldFVx | ldBVx | ldMemVx | ldVxMem =>
    simp [encode, decodeWord, decodeMisc]
  | seReg | sneReg => simp [encode, decodeWord, decodeCompare]
  | ldReg | orReg | andReg | xorReg | addReg | subReg | shr | subn | shl => simp [encode, decodeWord, decodeAlu]
  | drw => simp [encode, decodeWord]

/-- The bytes of a word decode as the word, and leave the bytes after them (R38, R51). -/
theorem decodeBytes_wordBytes (strict : Bool) (w : Word) (rest : List Byte) :
    decodeBytes strict (wordBytes w ++ rest) = (decodeWord strict w, rest) :=
  congrArg (fun v => (decodeWord strict v, rest)) (joinBytes_wordBytes w)

/-- Settles O2: the bytes join to the instruction's word again, which decodes to the instruction. -/
theorem decodeOfEncodedBytes : Obligations.DecodeOfEncodedBytes := by
  intro strict i rest
  rw [encodeBytes, decodeBytes_wordBytes, decodeWord_encode]

/-! ### Every word -/

/-- What the strict or the lax decoder makes of a word: the instruction it encodes, one of R60's lines if it encodes none, or
in the lax dialect a comparison whose low nibble is ignored (decision D14). -/
inductive DecodesTo (strict : Bool) : Word → Decoded → Prop where
  | encoded (i : Instr) : DecodesTo strict (encode i) (.instr i)
  | laxSeReg (x y : Reg) (n : Nibble) (hlax : strict = false) : DecodesTo strict (encFR 0x5 x y n) (.instr (.seReg x y))
  | laxSneReg (x y : Reg) (n : Nibble) (hlax : strict = false) : DecodesTo strict (encFR 0x9 x y n) (.instr (.sneReg x y))
  | zeroClass (nnn : Addr12) (hcls : nnn ≠ 0x0E0) (hret : nnn ≠ 0x0EE) :
      DecodesTo strict (encFA 0x0 nnn) (.invalid .zeroClass)
  | compareNibble (c : Nibble) (x y : Reg) (n : Nibble) (hc : c = 0x5 ∨ c = 0x9) (hstrict : strict = true) (hn : n ≠ 0x0) :
      DecodesTo strict (encFR c x y n) (.invalid .compareNibble)
  | aluFunction (x y : Reg) (n : Nibble) (hn : ¬(n.toNat ≤ 7 ∨ n.toNat = 0xE)) :
      DecodesTo strict (encFR 0x8 x y n) (.invalid .aluFunction)
  | keyFunction (x : Reg) (nn : Byte) (hnn : ¬(nn.toNat = 0x9E ∨ nn.toNat = 0xA1)) :
      DecodesTo strict (encFI 0xE x nn) (.invalid .keyFunction)
  | miscFunction (x : Reg) (nn : Byte) (hnn : nn.toNat ∉ miscFunctions) :
      DecodesTo strict (encFI 0xF x nn) (.invalid .miscFunction)

theorem decodeZero_decodesTo (strict : Bool) (nnn : Addr12) :
    DecodesTo strict (encFA 0x0 nnn) (decodeZero (encFA 0x0 nnn)) := by
  by_cases hcls : nnn = 0x0E0
  · subst hcls
    exact .encoded .cls
  by_cases hret : nnn = 0x0EE
  · subst hret
    exact .encoded .ret
  have hne : ∀ w, nnn ≠ fieldNNN w → encFA 0x0 nnn ≠ w := fun w hw h => hw (by rw [← h, fieldNNN_encFA])
  rw [decodeZero, if_neg (hne 0x00E0 hcls), if_neg (hne 0x00EE hret)]
  exact .zeroClass nnn hcls hret

/-- The comparisons of registers: at low nibble 0 the word is the instruction's own. -/
theorem decodeCompare_decodesTo {strict : Bool} {c : Nibble} {x y : Reg} {i : Instr} (hc : c = 0x5 ∨ c = 0x9)
    (hown : encode i = encFR c x y 0x0) (hlax : ∀ n, strict = false → DecodesTo strict (encFR c x y n) (.instr i))
    (n : Nibble) : DecodesTo strict (encFR c x y n) (decodeCompare strict n i) := by
  by_cases hn : n = 0x0
  · subst hn
    rw [← hown, decodeCompare, if_neg (by simp)]
    exact .encoded i
  · cases strict with
    | false => exact hlax n rfl
    | true =>
      rw [decodeCompare, if_pos (by simpa using hn)]
      exact .compareNibble c x y n hc rfl hn

theorem decodeAlu_decodesTo (strict : Bool) (x y : Reg) (n : Nibble) :
    DecodesTo strict (encFR 0x8 x y n) (decodeAlu x y n) := by
  unfold decodeAlu
  split
  · exact .encoded (.ldReg x y)
  · exact .encoded (.orReg x y)
  · exact .encoded (.andReg x y)
  · exact .encoded (.xorReg x y)
  · exact .encoded (.addReg x y)
  · exact .encoded (.subReg x y)
  · exact .encoded (.shr x y)
  · exact .encoded (.subn x y)
  · exact .encoded (.shl x y)
  · exact .aluFunction x y n (by simp_all only [imp_false]; bv_omega)

theorem decodeKey_decodesTo (strict : Bool) (x : Reg) (nn : Byte) :
    DecodesTo strict (encFI 0xE x nn) (decodeKey x nn) := by
  unfold decodeKey
  split
  · exact .encoded (.skp x)
  · exact .encoded (.sknp x)
  · exact .keyFunction x nn (by simp_all only [imp_false]; bv_omega)

theorem decodeMisc_decodesTo (strict : Bool) (x : Reg) (nn : Byte) :
    DecodesTo strict (encFI 0xF x nn) (decodeMisc x nn) := by
  unfold decodeMisc
  split
  · exact .encoded (.ldVxDT x)
  · exact .encoded (.ldVxK x)
  · exact .encoded (.ldDTVx x)
  · exact .encoded (.ldSTVx x)
  · exact .encoded (.addIVx x)
  · exact .encoded (.ldFVx x)
  · exact .encoded (.ldBVx x)
  · exact .encoded (.ldMemVx x)
  · exact .encoded (.ldVxMem x)
  · refine .miscFunction x nn ?_
    simp_all only [imp_false, miscFunctions, List.mem_cons, List.not_mem_nil, or_false]
    bv_omega

/-- The answer on the word of an instruction, in the form the classes below need it. -/
theorem decodeWord_decodesTo_of_encode (strict : Bool) (i : Instr) :
    DecodesTo strict (encode i) (decodeWord strict (encode i)) := by
  rw [decodeWord_encode]
  exact .encoded i

/-- The decoder answers one of these for every word, by its class (R55). -/
theorem decodeWord_decodesTo (strict : Bool) (w : Word) : DecodesTo strict w (decodeWord strict w) := by
  refine word_formats (P := fun w => DecodesTo strict w (decodeWord strict w)) ?_ ?_ ?_ w
  · intro c nnn hc
    simp only [List.mem_cons, List.not_mem_nil, or_false] at hc
    rcases hc with rfl | rfl | rfl | rfl | rfl
    · simpa [decodeWord] using decodeZero_decodesTo strict nnn
    · exact decodeWord_decodesTo_of_encode strict (.jp nnn)
    · exact decodeWord_decodesTo_of_encode strict (.call nnn)
    · exact decodeWord_decodesTo_of_encode strict (.ldI nnn)
    · exact decodeWord_decodesTo_of_encode strict (.jpV0 nnn)
  · intro c x nn hc
    simp only [List.mem_cons, List.not_mem_nil, or_false] at hc
    rcases hc with rfl | rfl | rfl | rfl | rfl | rfl | rfl
    · exact decodeWord_decodesTo_of_encode strict (.seByte x nn)
    · exact decodeWord_decodesTo_of_encode strict (.sneByte x nn)
    · exact decodeWord_decodesTo_of_encode strict (.ldByte x nn)
    · exact decodeWord_decodesTo_of_encode strict (.addByte x nn)
    · exact decodeWord_decodesTo_of_encode strict (.rnd x nn)
    · simpa [decodeWord] using decodeKey_decodesTo strict x nn
    · simpa [decodeWord] using decodeMisc_decodesTo strict x nn
  · intro c x y n hc
    simp only [List.mem_cons, List.not_mem_nil, or_false] at hc
    rcases hc with rfl | rfl | rfl | rfl
    · simpa [decodeWord] using decodeCompare_decodesTo (.inl rfl) rfl (.laxSeReg x y) n
    · simpa [decodeWord] using decodeAlu_decodesTo strict x y n
    · simpa [decodeWord] using decodeCompare_decodesTo (.inr rfl) rfl (.laxSneReg x y) n
    · exact decodeWord_decodesTo_of_encode strict (.drw x y n)

/-! ### Encoding a decoded word -/

/-- Settles O3: in the strict dialect a word decodes to the instruction it encodes or to none. -/
theorem encodeOfDecodedWord : Obligations.EncodeOfDecodedWord := by
  intro w i h
  have hd := decodeWord_decodesTo true w
  rw [h] at hd
  cases hd with
  | encoded => rfl
  | laxSeReg x y n hlax | laxSneReg x y n hlax => cases hlax

/-! ### The invalid words -/

theorem toNat_div_class (w : Word) : w.toNat / 0x1000 = (fieldClass w).toNat := by
  have hw : w.toNat < 2 ^ 16 := w.isLt
  rw [fieldClass, BitVec.extractLsb'_toNat, Nat.shiftRight_eq_div_pow]
  omega

theorem toNat_lt_iff_fieldClass (w : Word) : w.toNat < 0x1000 ↔ (fieldClass w).toNat = 0 := by
  rw [← toNat_div_class]
  omega

theorem toNat_mod_fieldN (w : Word) : w.toNat % 0x10 = (fieldN w).toNat := by
  rw [fieldN, BitVec.extractLsb'_toNat]
  rfl

theorem toNat_mod_fieldNN (w : Word) : w.toNat % 0x100 = (fieldNN w).toNat := by
  rw [fieldNN, BitVec.extractLsb'_toNat]
  rfl

/-- R60's list in the fields of R52. -/
theorem invalidBecause_eq_fields (strict : Bool) (w : Word) :
    invalidBecause strict w =
      if (fieldClass w).toNat = 0 then
        if w.toNat = 0x00E0 ∨ w.toNat = 0x00EE then none else some .zeroClass
      else if (fieldClass w).toNat = 5 ∨ (fieldClass w).toNat = 9 then
        if strict ∧ (fieldN w).toNat ≠ 0 then some .compareNibble else none
      else if (fieldClass w).toNat = 8 then
        if (fieldN w).toNat ≤ 7 ∨ (fieldN w).toNat = 0xE then none else some .aluFunction
      else if (fieldClass w).toNat = 0xE then
        if (fieldNN w).toNat = 0x9E ∨ (fieldNN w).toNat = 0xA1 then none else some .keyFunction
      else if (fieldClass w).toNat = 0xF then
        if (fieldNN w).toNat ∈ miscFunctions then none else some .miscFunction
      else none := by
  simp only [invalidBecause, toNat_lt_iff_fieldClass, toNat_div_class, toNat_mod_fieldN, toNat_mod_fieldNN]

/-- The word of an instruction is on no line of R60's list. -/
theorem invalidBecause_encode (strict : Bool) (i : Instr) : invalidBecause strict (encode i) = none := by
  rw [invalidBecause_eq_fields]
  cases i with
  | cls | ret => rfl
  | _ => simp [encode, miscFunctions]

/-- The line of R60's list under which a decoder's answer rejects the word, if it does. -/
def rejection : Decoded → Option Invalid
  | .instr _ => none
  | .invalid why => some why

theorem eq_invalid_iff (d : Decoded) (why : Invalid) : d = .invalid why ↔ rejection d = some why := by
  cases d <;> simp [rejection]

/-- Every answer of the decoder rejects the word under R60's line for it. -/
theorem DecodesTo.rejection_eq {strict : Bool} {w : Word} {d : Decoded} (h : DecodesTo strict w d) :
    rejection d = invalidBecause strict w := by
  cases h with
  | encoded i => exact (invalidBecause_encode strict i).symm
  | laxSeReg x y n hlax | laxSneReg x y n hlax => simp [rejection, invalidBecause_eq_fields, hlax]
  | zeroClass nnn hcls hret =>
    have hcls' : nnn.toNat ≠ 0x0E0 := by bv_omega
    have hret' : nnn.toNat ≠ 0x0EE := by bv_omega
    simp [rejection, invalidBecause_eq_fields, toNat_encFA, hcls', hret']
  | compareNibble c x y n hc hstrict hn =>
    have hn' : n.toNat ≠ 0 := by bv_omega
    rcases hc with rfl | rfl <;> simp [rejection, invalidBecause_eq_fields, hstrict, hn']
  | aluFunction x y n hn => simp [rejection, invalidBecause_eq_fields, hn]
  | keyFunction x nn hnn => simp [rejection, invalidBecause_eq_fields, hnn]
  | miscFunction x nn hnn => simp [rejection, invalidBecause_eq_fields, hnn]

/-- Settles O4: the decoder's rejection of a word and R60's are one function. -/
theorem decoderRejectsTheInvalidWords : Obligations.DecoderRejectsTheInvalidWords := by
  intro strict w why
  rw [eq_invalid_iff, (decodeWord_decodesTo strict w).rejection_eq]

/-! ### The opcode table -/

/-- The word of every instruction is in the instruction's row of the table. -/
theorem encode_fits_row (i : Instr) : Laws.EncodeFitsRow.Statement i := by
  open Laws.EncodeFitsRow in
  cases i
  exacts [cls, ret, jp _, call _, seByte _ _, sneByte _ _, seReg _ _, ldByte _ _, addByte _ _, ldReg _ _, orReg _ _,
    andReg _ _, xorReg _ _, addReg _ _, subReg _ _, shr _ _, subn _ _, shl _ _, sneReg _ _, ldI _, jpV0 _, rnd _ _,
    drw _ _ _, skp _, sknp _, ldVxDT _, ldVxK _, ldDTVx _, ldSTVx _, addIVx _, ldFVx _, ldBVx _, ldMemVx _, ldVxMem _]

/-- The mnemonic of the row that a decoded word is in. -/
def mnemonicOf (d : Decoded) : Option String := d.instr?.map rowMnemonic

theorem exists_instr_of_mnemonicOf {d : Decoded} {m : String} (h : mnemonicOf d = some m) :
    ∃ i, d = .instr i ∧ rowMnemonic i = m := by
  cases d with
  | instr i => exact ⟨i, rfl, Option.some.inj h⟩
  | invalid why => cases h

theorem mnemonicOf_decodeCompare {n n' : Nibble} {i j : Instr} (hn : n = n') (h : rowMnemonic i = rowMnemonic j) :
    mnemonicOf (decodeCompare true n i) = mnemonicOf (decodeCompare true n' j) := by
  subst hn
  unfold decodeCompare
  split
  · rfl
  · exact congrArg some h

theorem mnemonicOf_decodeAlu {x y x' y' : Reg} {n n' : Nibble} (hn : n = n') :
    mnemonicOf (decodeAlu x y n) = mnemonicOf (decodeAlu x' y' n') := by
  subst hn
  unfold decodeAlu
  split <;> rfl

theorem mnemonicOf_decodeKey {x x' : Reg} {nn nn' : Byte} (hnn : nn = nn') :
    mnemonicOf (decodeKey x nn) = mnemonicOf (decodeKey x' nn') := by
  subst hnn
  unfold decodeKey
  split <;> rfl

theorem mnemonicOf_decodeMisc {x x' : Reg} {nn nn' : Byte} (hnn : nn = nn') :
    mnemonicOf (decodeMisc x nn) = mnemonicOf (decodeMisc x' nn') := by
  subst hnn
  unfold decodeMisc
  split <;> rfl

/-- The mnemonic is read from the class and what the class adds to it: all of the word in class 0, the low nibble in classes
5, 8 and 9, the low byte in classes E and F (R55 to R59). -/
theorem mnemonicOf_decodeWord_congr {w v : Word} (hclass : fieldClass w = fieldClass v)
    (hzero : fieldClass w = 0x0 → w = v)
    (hnibble : fieldClass w ∈ [0x5#4, 0x8, 0x9] → fieldN w = fieldN v)
    (hbyte : fieldClass w ∈ [0xE#4, 0xF] → fieldNN w = fieldNN v) :
    mnemonicOf (decodeWord true w) = mnemonicOf (decodeWord true v) := by
  unfold decodeWord
  rw [← hclass]
  rcases nibble_cases (fieldClass w) with
    hc | hc | hc | hc | hc | hc | hc | hc | hc | hc | hc | hc | hc | hc | hc | hc <;>
    rw [hc] at hzero hnibble hbyte ⊢
  · rw [hzero rfl]
  · rfl
  · rfl
  · rfl
  · rfl
  · exact mnemonicOf_decodeCompare (hnibble (by decide)) rfl
  · rfl
  · rfl
  · exact mnemonicOf_decodeAlu (hnibble (by decide))
  · exact mnemonicOf_decodeCompare (hnibble (by decide)) rfl
  · rfl
  · rfl
  · rfl
  · rfl
  · exact mnemonicOf_decodeKey (hbyte (by decide))
  · exact mnemonicOf_decodeMisc (hbyte (by decide))

/-! ### What a mask of ones keeps -/

theorem slice_and_ones {k : Nat} (w m : BitVec k) (l n : Nat) (hm : m.extractLsb' l n = BitVec.allOnes n) :
    (w &&& m).extractLsb' l n = w.extractLsb' l n := by
  rw [BitVec.extractLsb'_and, hm, BitVec.and_allOnes]

/-- A mask keeps the mnemonic of a word when it keeps all that the word's class reads it from. -/
theorem mnemonicOf_decodeWord_and {w m : Word} (hclass : fieldClass m = 0xF)
    (hzero : fieldClass w = 0x0 → m = 0xFFFF)
    (hnibble : fieldClass w ∈ [0x5#4, 0x8, 0x9] → fieldN m = 0xF)
    (hbyte : fieldClass w ∈ [0xE#4, 0xF] → fieldNN m = 0xFF) :
    mnemonicOf (decodeWord true w) = mnemonicOf (decodeWord true (w &&& m)) := by
  refine mnemonicOf_decodeWord_congr ?_ (fun hw => ?_) (fun hw => ?_) (fun hw => ?_)
  · exact (slice_and_ones w m 12 4 hclass).symm
  · rw [hzero hw]
    exact BitVec.and_allOnes.symm
  · exact (slice_and_ones w m 0 4 (hnibble hw)).symm
  · exact (slice_and_ones w m 0 8 (hbyte hw)).symm

theorem opcodeRows_mask : ∀ r ∈ opcodeRows, fieldClass r.mask = 0xF ∧
    (fieldClass r.pattern = 0x0 → r.mask = 0xFFFF) ∧
    (fieldClass r.pattern ∈ [0x5#4, 0x8, 0x9] → fieldN r.mask = 0xF) ∧
    (fieldClass r.pattern ∈ [0xE#4, 0xF] → fieldNN r.mask = 0xFF) := by decide

theorem opcodeRows_pattern : ∀ r ∈ opcodeRows, mnemonicOf (decodeWord true r.pattern) = some r.mnemonic := by decide

theorem decodeWord_of_matches {w : Word} {r : OpcodeRow} (hr : r ∈ opcodeRows) (h : r.matches w = true) :
    ∃ i, decodeWord true w = .instr i ∧ rowMnemonic i = r.mnemonic := by
  obtain ⟨hclass, hzero, hnibble, hbyte⟩ := opcodeRows_mask r hr
  have hp : w &&& r.mask = r.pattern := beq_iff_eq.mp h
  have hw : fieldClass r.pattern = fieldClass w := hp ▸ slice_and_ones w r.mask 12 4 hclass
  rw [hw] at hzero hnibble hbyte
  apply exists_instr_of_mnemonicOf
  rw [mnemonicOf_decodeWord_and hclass hzero hnibble hbyte, hp, opcodeRows_pattern r hr]

/-- Settles O5: a word that decodes is the encoding of its instruction, which is in the instruction's row; a word of a row
decodes as the row's pattern does, but for the operands. -/
theorem decoderReadsTheOpcodeTable : Obligations.DecoderReadsTheOpcodeTable := by
  refine ⟨fun w i h => ?_, fun w r hr hm => decodeWord_of_matches hr hm⟩
  rw [← encodeOfDecodedWord w i h]
  exact encode_fits_row i

end Sys2Proof.Proofs
end

section
/-! The engine (spec/40_engine.md R63 to R71): what a step does outside `Running`, on a word that decodes and on an invalid
one, what an instruction reports, and what `step()` returns. -/

open Sys2Proof Sys2Proof.Machine

namespace Sys2Proof.Proofs

/-! ### The three things a step can do -/

/-- The advance of `pc` by 2, as a number (R65; decision D3). -/
theorem add_two_eq_ofNat (w : Word) : w + 2 = BitVec.ofNat 16 (w.toNat + 2) := by
  rw [BitVec.ofNat_add, BitVec.ofNat_toNat, BitVec.setWidth_eq]
  rfl

/-- Settles O7. -/
theorem stepRunsTheDecodedInstruction : Obligations.StepRunsTheDecodedInstruction := by
  intro s i hrun hd
  rw [← add_two_eq_ofNat]
  exact engineStepIn_instr dialect exec s i hrun hd

/-- In any run state but `Running`, a step changes nothing (R63). -/
theorem stepIn_of_not_running (d : Dialect) (s : State) (h : s.run ≠ .running) : stepIn d s = .next s :=
  engineStepIn_of_not_running d (execIn d) s h

/-- In any run state but `Running`, a step changes nothing and returns one result in every dialect, if it does in each. -/
theorem step_of_not_running {s : State} {r : StepResult} (hne : s.run ≠ .running)
    (hr : ∀ d, stepResultIn d s = some r) :
    step s = .next s ∧ stepResult s = some r ∧ ∀ d, stepIn d s = .next s ∧ stepResultIn d s = some r :=
  ⟨(step_eq_stepIn s).trans (stepIn_of_not_running dialect s hne), hr dialect,
    fun d => ⟨stepIn_of_not_running d s hne, hr d⟩⟩

/-- Settles O8: the result outside `Running` is read from the run state alone. -/
theorem stepOutsideRunningChangesNothing : Obligations.StepOutsideRunningChangesNothing := by
  refine ⟨fun s x h => step_of_not_running ?_ fun d => ?_, fun s e h => step_of_not_running ?_ fun d => ?_⟩
  · exact h ▸ RunState.noConfusion
  · simp only [stepResultIn, h]
  · exact h ▸ RunState.noConfusion
  · simp only [stepResultIn, h]

/-- In `Running`, an invalid word is reported on the state with `pc` advanced (R70). -/
theorem stepIn_invalid (d : Dialect) (s : State) (why : Invalid) (hrun : s.run = .running)
    (hd : decodeWord d.strict59 (s.fetch16 s.pc) = .invalid why) :
    stepIn d s = .next ((s.setPc (s.pc + 2)).raiseInvalid d (s.fetch16 s.pc) s.pc) :=
  engineStepIn_invalid d (execIn d) s why hrun hd

/-- Settles O9: in the dialect that does not halt the run state is `Running` as it was. -/
theorem invalidWordIsReported : Obligations.InvalidWordIsReported := by
  intro d s why hrun hd
  rw [stepIn_invalid d s why hrun hd, State.raiseInvalid_eq, State.setPc_run, hrun]
  cases d.onInvalid <;> rfl

/-! ### What an instruction reports -/

/-- The errors that the execute phase takes (R112): the instruction, the error with its info, and when. -/
inductive Raises (d : Dialect) (s : State) : Instr → Error → Prop where
  /-- RET at depth 0 (R115). -/
  | underflow (h : s.sp.val = 0) : Raises d s .ret (.stackUnderflow s.fetchAddress)
  /-- CALL at depth 16 (R114). -/
  | overflow (nnn : Addr12) (h : s.sp.val = 16) : Raises d s (.call nnn) (.stackOverflow s.fetchAddress)
  /-- A store to a reserved address, in the dialect that makes it an error (R40). -/
  | reserved {i : Instr} (ea : Word) (hd : d.reservedWrite = .fault) (hi : WritesMem i) (hea : ea.toNat < reservedTop) :
      Raises d s i (.reservedWrite ea)
  /-- A key skip on a register above 15, in the dialect that makes it an error (R104). -/
  | keyRegister {i : Instr} (x : Reg) (hd : d.keyIndexMode = .fault) (hi : i = .skp x ∨ i = .sknp x)
      (hx : 15 < (s.reg x).toNat) : Raises d s i (.keyRegisterOutOfRange (s.reg x))

/-- The ways an instruction can end, by the trace and the run state it leaves: completed, suspended, or stopped with one
error (R68, R71, R107). -/
inductive Ending (d : Dialect) (i : Instr) (s t : State) : Prop where
  | completed (htrace : t.trace = s.trace) (hrun : t.run = s.run) (hi : ∀ x, i ≠ .ldVxK x)
  | suspended (x : Reg) (hi : i = .ldVxK x) (htrace : t.trace = s.trace) (hrun : t.run = .awaitingKey x)
  | stopped (e : Error) (he : Raises d s i e) (htrace : t.trace = .raised e :: s.trace) (hrun : t.run = .halted e.kind)

@[simp] theorem skipIf_trace (s : State) (c : Bool) : (s.skipIf c).trace = s.trace := by
  rw [State.skipIf_eq, State.setPc_trace]

@[simp] theorem skipIf_run (s : State) (c : Bool) : (s.skipIf c).run = s.run := by
  rw [State.skipIf_eq, State.setPc_run]

@[simp] theorem incrementIIn_trace (s : State) (d : Dialect) (x : Reg) : (s.incrementIIn d x).trace = s.trace := by
  rw [State.incrementIIn_eq, State.setI_trace]

@[simp] theorem incrementIIn_run (s : State) (d : Dialect) (x : Reg) : (s.incrementIIn d x).run = s.run := by
  rw [State.incrementIIn_eq, State.setI_run]

/-- A register value names no key exactly in the dialect that makes a value above 15 an error (R104). -/
theorem keyIndexIn_eq_none_iff (mode : KeyIndexMode) (b : Byte) :
    keyIndexIn mode b = none ↔ mode = .fault ∧ 15 < b.toNat := by
  cases mode with
  | lowNibble => simp [keyIndexIn]
  | fault =>
    simp only [keyIndexIn, dite_eq_right_iff, reduceCtorEq, imp_false, true_and]
    omega

/-- A skip, in an instruction that is not FX0A. -/
theorem Ending.skipIf (d : Dialect) {i : Instr} (hi : ∀ x, i ≠ .ldVxK x) (s : State) (c : Bool) :
    Ending d i s (s.skipIf c) :=
  .completed (skipIf_trace s c) (skipIf_run s c) hi

/-- A key skip completes, or stops where its register names no key. -/
theorem skipOnKeyIn_ending (d : Dialect) {i : Instr} (p : Bool) (x : Reg) (hi : i = .skp x ∨ i = .sknp x) (s : State) :
    ∃ t, skipOnKeyIn d p x s = .next t ∧ Ending d i s t := by
  cases h : keyIndexIn d.keyIndexMode (s.reg x) with
  | some k => exact ⟨_, skipOnKeyIn_some d p x s k h, .skipIf d (by rcases hi with rfl | rfl <;> exact nofun) s _⟩
  | none =>
    obtain ⟨hd, hx⟩ := (keyIndexIn_eq_none_iff _ _).mp h
    exact ⟨_, skipOnKeyIn_none d p x s h, .stopped _ (.keyRegister x hd hi hx) rfl rfl⟩

/-- A run of stores and what comes after it completes, or stops at a reserved address. -/
theorem store_ending (d : Dialect) {i : Instr} (hi : WritesMem i) (a : Word) (bs : List Byte) (s : State)
    (f : State → State) (htrace : ∀ t, (f t).trace = t.trace) (hrun : ∀ t, (f t).run = t.run) :
    Ending d i s ((storeBytesIn d a bs s).andThen f) := by
  rcases storeBytesIn_cases d a bs s with ⟨m, hm⟩ | ⟨hd, m, ea, hea, hm⟩ <;> rw [hm]
  · refine .completed (htrace _) (hrun _) ?_
    obtain ⟨y, rfl | rfl⟩ := hi <;> exact nofun
  · exact .stopped _ (.reserved ea hd hi hea) rfl rfl

theorem execRet_ending (d : Dialect) (s : State) : ∃ t, execRet s = .next t ∧ Ending d .ret s t := by
  rcases sp_eq_zero_or_succ s with h | ⟨k, hk, h⟩
  · exact ⟨_, execRet_empty s h, .stopped _ (.underflow h) rfl rfl⟩
  · exact ⟨_, execRet_of_pos s k hk h, .completed rfl rfl nofun⟩

theorem execCall_ending (d : Dialect) (nnn : Addr12) (s : State) :
    ∃ t, execCall nnn s = .next t ∧ Ending d (.call nnn) s t := by
  rcases sp_lt_or_full s with h | h
  · exact ⟨_, execCall_of_lt nnn s _ h rfl, .completed rfl rfl nofun⟩
  · exact ⟨_, execCall_full nnn s h, .stopped _ (.overflow nnn h) rfl rfl⟩

/-- A logic instruction completes. -/
theorem logicWriteIn_ending (d : Dialect) {i : Instr} (hi : ∀ x, i ≠ .ldVxK x) (x : Reg) (b : Byte) (s : State) :
    ∃ t, logicWriteIn d x b s = .next t ∧ Ending d i s t := by
  refine ⟨_, rfl, ?_⟩
  split <;> exact .completed rfl rfl hi

/-- Every instruction, in every state and every dialect, ends in one of the three ways. -/
theorem execIn_ending (d : Dialect) (i : Instr) (s : State) : ∃ t, execIn d i s = .next t ∧ Ending d i s t := by
  cases i with
  | ret => exact execRet_ending d s
  | call nnn => exact execCall_ending d nnn s
  | skp x => exact skipOnKeyIn_ending d true x (.inl rfl) s
  | sknp x => exact skipOnKeyIn_ending d false x (.inr rfl) s
  | ldBVx x => exact ⟨_, rfl, store_ending d ⟨x, .inl rfl⟩ _ _ s id (fun _ => rfl) fun _ => rfl⟩
  | ldMemVx x =>
    exact ⟨_, rfl, store_ending d ⟨x, .inr rfl⟩ _ _ s _ (fun t => incrementIIn_trace t d x) fun t => incrementIIn_run t d x⟩
  | ldVxK x => exact ⟨_, rfl, .suspended x rfl rfl rfl⟩
  | seByte x nn => exact ⟨_, rfl, .skipIf d (by nofun) s _⟩
  | sneByte x nn => exact ⟨_, rfl, .skipIf d (by nofun) s _⟩
  | seReg x y => exact ⟨_, rfl, .skipIf d (by nofun) s _⟩
  | sneReg x y => exact ⟨_, rfl, .skipIf d (by nofun) s _⟩
  | orReg x y => exact logicWriteIn_ending d (by nofun) x _ s
  | andReg x y => exact logicWriteIn_ending d (by nofun) x _ s
  | xorReg x y => exact logicWriteIn_ending d (by nofun) x _ s
  | addIVx x =>
    refine ⟨_, rfl, ?_⟩
    split <;> exact .completed rfl rfl nofun
  | ldVxMem x =>
    obtain ⟨v, hv⟩ := loadRegs_eq s.i (regsTo x) s
    refine ⟨_, rfl, .completed ?_ ?_ nofun⟩
    · rw [incrementIIn_trace, hv]
    · rw [incrementIIn_run, hv]
  | _ => exact ⟨_, rfl, .completed rfl rfl nofun⟩

/-- Settles O12, by the three ways an instruction can end. -/
theorem onlyTheseInstructionsRaise : Obligations.OnlyTheseInstructionsRaise := by
  intro d i s t h
  obtain ⟨u, hu, hend⟩ := execIn_ending d i s
  obtain rfl : u = t := Host.Outcome.next.inj (hu.symm.trans h)
  cases hend with
  | completed htrace hrun hi => exact .inl htrace
  | suspended x hi htrace hrun => exact .inl htrace
  | stopped e he htrace hrun =>
    refine .inr ⟨e, htrace, hrun, ?_⟩
    cases he with
    | underflow hsp => exact .inl ⟨rfl, hsp, rfl⟩
    | overflow nnn hsp => exact .inr (.inl ⟨nnn, rfl, hsp, rfl⟩)
    | reserved ea hd hi hea => exact .inr (.inr (.inl ⟨hd, hi, ea, hea, rfl⟩))
    | keyRegister x hd hi hx => exact .inr (.inr (.inr ⟨hd, x, hi, hx, rfl⟩))

/-! ### What a step returns -/

/-- A step in `Running` on an invalid word returns the error that it reports (R70). -/
theorem stepResultIn_invalid (d : Dialect) (s : State) (why : Invalid) (hrun : s.run = .running)
    (hd : decodeWord d.strict59 (s.fetch16 s.pc) = .invalid why) :
    stepResultIn d s = some (.error (.invalidInstruction (s.fetch16 s.pc) s.pc)) := by
  refine stepResultIn_of_error d s _ _ hrun (stepIn_invalid d s why hrun hd) (reportedError_of_raised s _ _ ?_)
  rw [State.raiseInvalid_eq]
  rfl

/-- Settles O60: the result is read from the trace and the run state in which the instruction ends. -/
theorem stepReturnsItsResult : Obligations.StepReturnsItsResult := by
  refine ⟨fun s => rfl, stepResultIn_invalid, fun d s i hrun hd => ?_⟩
  obtain ⟨t, ht, hend⟩ := execIn_ending d i (s.setPc (s.pc + 2))
  have hstep : stepIn d s = .next t := (engineStepIn_instr d (execIn d) s i hrun hd).trans ht
  refine ⟨t, ht, hstep, ?_⟩
  cases hend with
  | stopped e he htrace hhalt =>
    exact .inl ⟨e, htrace, stepResultIn_of_error d s t e hrun hstep (reportedError_of_raised s t e htrace)⟩
  | suspended x hi htrace hwait =>
    refine .inr (.inl ⟨htrace, ⟨x, hi⟩, ?_⟩)
    rw [stepResultIn_of_none d s t hrun hstep (reportedError_of_same s t htrace), hwait]
    rfl
  | completed htrace hsame hi =>
    refine .inr (.inr ⟨htrace, hi, ?_⟩)
    rw [stepResultIn_of_none d s t hrun hstep (reportedError_of_same s t htrace), if_pos (hsame.trans hrun)]

end Sys2Proof.Proofs
end

section
/-! The display (spec/41_display.md R73 to R75): what 00E0 and DXYN do to every pixel and to the flag register, what they leave
unchanged, and what a second draw of the same sprite does. -/

open Sys2Proof Sys2Proof.Machine

namespace Sys2Proof.Proofs

/-! ### The cleared screen -/

theorem exec_cls (s : State) : exec .cls s = .next (s.setFb clearGrid) := rfl

/-- Settles O37. -/
theorem clearTurnsEveryPixelOff : Obligations.ClearTurnsEveryPixelOff := fun s =>
  ⟨s.setFb clearGrid, exec_cls s, rfl, pixel_clearGrid⟩

/-! ### The pixels a sprite lands on -/

/-- A 1 bit of the sprite of DXYN lands on the pixel, wrapped at both edges (R74; decision D1, general knowledge
G8). -/
def SpriteLands (x y : Reg) (n : Nibble) (s : State) (px : Fin 64) (py : Fin 32) : Prop :=
  ∃ r c : Nat, r < n.toNat ∧ c < 8 ∧ (s.mem.read ((s.i.toNat + r) % 4096)).getLsbD (7 - c) = true ∧
    px.val = ((s.reg x).toNat % 64 + c) % 64 ∧ py.val = ((s.reg y).toNat % 32 + r) % 32

/-- The sprite's pixels, by the address of each of its bytes, are those of its list of rows. -/
theorem rowsLand_spriteRows_iff (x y : Reg) (n : Nibble) (s : State) (px : Fin 64) (py : Fin 32) :
    RowsLand (startColumn (s.reg x)) (startRow (s.reg y)) (spriteRows s n) 0 px py ↔ SpriteLands x y n s px py := by
  simp only [RowsLand, RowLands, BitLands, spriteBit, getElem_spriteRows, State.readByte_eq, effective_add,
    length_spriteRows, startColumn, startRow, Nat.zero_add]
  constructor
  · rintro ⟨r, hr, c, hc, h⟩
    exact ⟨r, c, hr, hc, h⟩
  · rintro ⟨r, c, hr, hc, h⟩
    exact ⟨r, hr, c, hc, h⟩

/-- Every 1 bit of a sprite lands somewhere. -/
theorem exists_spriteLands_iff (x y : Reg) (n : Nibble) (s : State) :
    (∃ px py, SpriteLands x y n s px py) ↔
      ∃ r c : Nat, r < n.toNat ∧ c < 8 ∧ (s.mem.read ((s.i.toNat + r) % 4096)).getLsbD (7 - c) = true := by
  constructor
  · rintro ⟨px, py, r, c, hr, hc, hbit, -, -⟩
    exact ⟨r, c, hr, hc, hbit⟩
  · rintro ⟨r, c, hr, hc, hbit⟩
    exact ⟨⟨_, Nat.mod_lt _ (by decide)⟩, ⟨_, Nat.mod_lt _ (by decide)⟩, r, c, hr, hc, hbit, rfl, rfl⟩

/-- Where a sprite lands is read from memory, `I` and the two coordinate registers. -/
theorem spriteLands_congr {x y : Reg} {s t : State} (n : Nibble) (hmem : t.mem = s.mem) (hi : t.i = s.i)
    (hx : t.reg x = s.reg x) (hy : t.reg y = s.reg y) (px : Fin 64) (py : Fin 32) :
    SpriteLands x y n t px py ↔ SpriteLands x y n s px py := by
  simp only [SpriteLands, hmem, hi, hx, hy]

/-! ### The grid and the hit after a draw -/

/-- A sprite has 15 rows at most, so no two of its bits meet on the 32 rows of the grid. -/
theorem length_spriteRows_le (s : State) (n : Nibble) : (spriteRows s n).length ≤ 32 := by
  rw [length_spriteRows]
  omega

/-- A draw toggles the pixels its sprite lands on (R75). -/
theorem drawSprite_pixel_ne_iff (x y : Reg) (n : Nibble) (s : State) (px : Fin 64) (py : Fin 32) :
    pixel (drawSprite x y n s).1 px py ≠ pixel s.fb px py ↔ SpriteLands x y n s px py := by
  have h : pixel (drawSprite x y n s).1 px py = true ↔ ¬ (pixel s.fb px py = true ↔ _) :=
    (drawRows_spec _ _ _ 0 (s.fb, false) (length_spriteRows_le s n)).1 px py
  rw [← rowsLand_spriteRows_iff, ne_eq, Bool.eq_iff_iff]
  tauto

theorem drawSprite_pixel_of_lands {x y : Reg} {n : Nibble} {s : State} {px : Fin 64} {py : Fin 32}
    (h : SpriteLands x y n s px py) : pixel (drawSprite x y n s).1 px py = !pixel s.fb px py :=
  Bool.eq_not.mpr ((drawSprite_pixel_ne_iff x y n s px py).mpr h)

theorem drawSprite_pixel_of_not_lands {x y : Reg} {n : Nibble} {s : State} {px : Fin 64} {py : Fin 32}
    (h : ¬ SpriteLands x y n s px py) : pixel (drawSprite x y n s).1 px py = pixel s.fb px py :=
  not_ne_iff.mp (mt (drawSprite_pixel_ne_iff x y n s px py).mp h)

/-- A draw hits where its sprite lands on a pixel that was on (R75). -/
theorem drawSprite_hit_iff (x y : Reg) (n : Nibble) (s : State) :
    (drawSprite x y n s).2 = true ↔ ∃ px py, SpriteLands x y n s px py ∧ pixel s.fb px py = true := by
  have h : (drawSprite x y n s).2 = true ↔ (false = true ∨ _) :=
    (drawRows_spec _ _ _ 0 (s.fb, false) (length_spriteRows_le s n)).2
  simpa only [rowsLand_spriteRows_iff, Bool.false_eq_true, false_or] using h

/-! ### The state after a draw -/

theorem flagByte_eq_one_iff (f : Bool) : flagByte f = 1 ↔ f = true := by
  cases f <;> decide

theorem flagByte_eq_zero_iff (f : Bool) : flagByte f = 0 ↔ ¬ f = true := by
  cases f <;> decide

theorem flagByte_eq_one_or_zero (f : Bool) : flagByte f = 1 ∨ flagByte f = 0 := by
  cases f <;> decide

/-- The state after DXYN. -/
def afterDraw (x y : Reg) (n : Nibble) (s : State) : State :=
  (s.setFb (drawSprite x y n s).1).setReg flagReg (flagByte (drawSprite x y n s).2)

theorem exec_drw (x y : Reg) (n : Nibble) (s : State) : exec (.drw x y n) s = .next (afterDraw x y n s) := rfl

theorem afterDraw_fb (x y : Reg) (n : Nibble) (s : State) : (afterDraw x y n s).fb = (drawSprite x y n s).1 := rfl

theorem afterDraw_reg_flagReg (x y : Reg) (n : Nibble) (s : State) :
    (afterDraw x y n s).reg flagReg = flagByte (drawSprite x y n s).2 := by
  rw [afterDraw, State.setReg_reg, if_pos rfl]

theorem afterDraw_reg_of_ne {r : Reg} (hr : r ≠ flagReg) (x y : Reg) (n : Nibble) (s : State) :
    (afterDraw x y n s).reg r = s.reg r := by
  rw [afterDraw, State.setReg_reg, if_neg hr, State.setFb_reg]

/-- Settles O38: what a draw does to the grid and its hit, by pixels. -/
theorem drawTogglesTheSpritePixels : Obligations.DrawTogglesTheSpritePixels := by
  intro x y n s lands
  refine ⟨afterDraw x y n s, exec_drw x y n s, ?_, drawSprite_pixel_ne_iff x y n s, ?_, ?_⟩
  · rw [afterDraw_fb, afterDraw_reg_flagReg, afterDraw]
  · intro hon
    rw [afterDraw_reg_flagReg, flagByte_eq_one_iff]
    exact (drawSprite_hit_iff x y n s).mpr hon
  · intro hoff
    rw [afterDraw_reg_flagReg, flagByte_eq_zero_iff]
    exact mt (drawSprite_hit_iff x y n s).mp hoff

/-! ### The same draw again -/

/-- The sprite lands where it did, when the first draw's flag is no coordinate. -/
theorem spriteLands_afterDraw {x y : Reg} (hx : x ≠ flagReg) (hy : y ≠ flagReg) (n : Nibble) (s : State) (px : Fin 64)
    (py : Fin 32) : SpriteLands x y n (afterDraw x y n s) px py ↔ SpriteLands x y n s px py :=
  spriteLands_congr (s := s) (t := afterDraw x y n s) n rfl rfl (afterDraw_reg_of_ne hx x y n s)
    (afterDraw_reg_of_ne hy x y n s) px py

/-- Every pixel is toggled by both draws or by neither. -/
theorem afterDraw_twice_fb {x y : Reg} (hx : x ≠ flagReg) (hy : y ≠ flagReg) (n : Nibble) (s : State) :
    (afterDraw x y n (afterDraw x y n s)).fb = s.fb := by
  refine Framebuffer.ext_pixel fun px py => ?_
  have hagain := spriteLands_afterDraw hx hy n s px py
  rw [afterDraw_fb]
  by_cases h : SpriteLands x y n s px py
  · rw [drawSprite_pixel_of_lands (hagain.mpr h), afterDraw_fb, drawSprite_pixel_of_lands h, Bool.not_not]
  · rw [drawSprite_pixel_of_not_lands (mt hagain.mp h), afterDraw_fb, drawSprite_pixel_of_not_lands h]

/-- The second draw hits where the first turned a pixel on. -/
theorem drawSprite_afterDraw_hit_iff {x y : Reg} (hx : x ≠ flagReg) (hy : y ≠ flagReg) (n : Nibble) (s : State) :
    (drawSprite x y n (afterDraw x y n s)).2 = true ↔
      ∃ px py, SpriteLands x y n s px py ∧ pixel s.fb px py = false := by
  rw [drawSprite_hit_iff]
  refine exists₂_congr fun px py => ?_
  rw [spriteLands_afterDraw hx hy, afterDraw_fb]
  refine and_congr_right fun hlands => ?_
  rw [drawSprite_pixel_of_lands hlands, Bool.not_eq_true']

/-- Settles O39: the second draw lands where the first did, toggles its pixels back, and hits those that the first turned on.
-/
theorem drawTwiceRestoresTheFramebuffer : Obligations.DrawTwiceRestoresTheFramebuffer := by
  intro x y n s hx hy lands
  have hflag : (afterDraw x y n (afterDraw x y n s)).reg flagReg = 1 ↔
      ∃ px py, SpriteLands x y n s px py ∧ pixel s.fb px py = false := by
    rw [afterDraw_reg_flagReg, flagByte_eq_one_iff, drawSprite_afterDraw_hit_iff hx hy]
  refine ⟨_, _, exec_drw x y n s, exec_drw x y n _, afterDraw_twice_fb hx hy n s, ?_, hflag, fun hoff => ?_⟩
  · rw [afterDraw_reg_flagReg]
    exact flagByte_eq_one_or_zero _
  · rw [hflag]
    refine Iff.trans ?_ (exists_spriteLands_iff x y n s)
    exact exists₂_congr fun px py => and_iff_left_of_imp (hoff px py)

/-! ### Frames -/

/-- A new framebuffer is all that changes. -/
theorem frame_setFb (s : State) (g : Framebuffer) : Frame [] [.fb] [] s (s.setFb g) := by
  refine ⟨fun _ _ => rfl, fun p hp => ?_, fun _ _ => rfl⟩
  cases p with
  | fb => exact absurd (List.mem_singleton_self _) hp
  | _ => rfl

/-- A write of one more register adds that register to what changes. -/
theorem frame_setReg {regs : List Reg} {parts : List Part} {stored : List Nat} {s t : State}
    (h : Frame regs parts stored s t) (r : Reg) (b : Byte) : Frame (r :: regs) parts stored s (t.setReg r b) := by
  obtain ⟨hregs, hparts, hbytes⟩ := h
  refine ⟨fun q hq => ?_, fun p hp => ?_, hbytes⟩
  · rw [List.mem_cons, not_or] at hq
    rw [State.setReg_reg, if_neg hq.1, hregs q hq.2]
  · have hsame := hparts p hp
    cases p <;> exact hsame

/-- Settles O59. -/
theorem displayFrame : Obligations.DisplayFrame := by
  intro x y n s t
  refine ⟨fun h => ?_, fun h => ?_⟩
  · rw [← Host.Outcome.next.inj ((exec_cls s).symm.trans h)]
    exact frame_setFb s _
  · rw [← Host.Outcome.next.inj ((exec_drw x y n s).symm.trans h)]
    exact frame_setReg (frame_setFb s _) flagReg _

end Sys2Proof.Proofs
end

section
/-! Control flow (spec/42_flow.md R76 to R83): the jumps and the skips, CALL and RET and how they undo each other, and what
all of them leave unchanged. -/

open Sys2Proof Sys2Proof.Machine

namespace Sys2Proof.Proofs

/-! ### Jumps -/

/-- 1NNN, with its operand as a number (R77). -/
theorem exec_jp (nnn : Addr12) (s : State) : exec (.jp nnn) s = .next (s.setPc (BitVec.ofNat 16 nnn.toNat)) := by
  rw [BitVec.ofNat_toNat]
  rfl

/-- BNNN, with its sum as a number (R83). -/
theorem exec_jpV0 (nnn : Addr12) (s : State) :
    exec (.jpV0 nnn) s = .next (s.setPc (BitVec.ofNat 16 (nnn.toNat + (s.reg 0).toNat))) := by
  rw [BitVec.ofNat_add, BitVec.ofNat_toNat, BitVec.ofNat_toNat]
  rfl

/-- Settles O14: a 12-bit and an 8-bit number have a sum far below 0x10000. -/
theorem jumpsSetPc : Obligations.JumpsSetPc :=
  ⟨exec_jp, exec_jpV0, fun nnn b => by omega⟩

/-- Settles O54: the jump writes back the `pc` that the step's advance had replaced. -/
theorem selfJumpIsDone : Obligations.SelfJumpIsDone := by
  intro s nnn hrun hd hpc
  refine ⟨hrun, ?_⟩
  rw [stepRunsTheDecodedInstruction s _ hrun hd, exec_jp, ← hpc, BitVec.ofNat_toNat, BitVec.setWidth_eq]
  rfl

/-! ### Skips -/

/-- A skip on the equality of two bytes (R79, R81). -/
theorem skipIf_beq (s : State) (a b : Byte) : s.skipIf (a == b) = if a = b then s.setPc (s.pc + 2) else s := by
  simp only [State.skipIf, beq_iff_eq]

/-- A skip on the difference of two bytes (R80, R82). -/
theorem skipIf_bne (s : State) (a b : Byte) : s.skipIf (a != b) = if a = b then s else s.setPc (s.pc + 2) := by
  simp only [State.skipIf, bne_iff_ne, ite_not]

/-- Settles O19. -/
theorem skipsAddTwoToPc : Obligations.SkipsAddTwoToPc := fun x y nn s =>
  ⟨congrArg _ (skipIf_beq s (s.reg x) nn), congrArg _ (skipIf_bne s (s.reg x) nn),
    congrArg _ (skipIf_beq s (s.reg x) (s.reg y)), congrArg _ (skipIf_bne s (s.reg x) (s.reg y))⟩

/-- EX9E in the default dialect, in which every value names the key of its low nibble (R105; decision D13). -/
theorem exec_skp (x : Reg) (s : State) :
    exec (.skp x) s = .next (s.skipIf (s.keyAt (Fin.ofNat 16 (s.reg x).toNat) == true)) :=
  skipOnKeyIn_some dialect true x s _ rfl

/-- EXA1 in the default dialect (R106; decision D13). -/
theorem exec_sknp (x : Reg) (s : State) :
    exec (.sknp x) s = .next (s.skipIf (s.keyAt (Fin.ofNat 16 (s.reg x).toNat) == false)) :=
  skipOnKeyIn_some dialect false x s _ rfl

/-! ### CALL and RET -/

/-- Settles O15, by the depth. -/
theorem callPushesOrOverflows : Obligations.CallPushesOrOverflows := by
  refine ⟨fun nnn s k hk h => ?_, execCall_full⟩
  rw [BitVec.ofNat_toNat]
  exact execCall_of_lt nnn s k hk h

/-- Settles O16, by the depth. -/
theorem returnPopsOrUnderflows : Obligations.ReturnPopsOrUnderflows :=
  ⟨execRet_of_pos, execRet_empty⟩

/-- Settles O18: the return pops the entry that the call pushed, which is none of those below the depth. -/
theorem callThenReturnResumesAfterTheCall : Obligations.CallThenReturnResumesAfterTheCall := by
  intro nnn s hlt
  refine ⟨_, execCall_of_lt nnn s s.sp.val hlt rfl, fun m hsp (hstack : m.stack = s.stack.set s.sp.val s.pc hlt) => ?_⟩
  refine ⟨_, execRet_of_pos m s.sp.val hlt (congrArg Fin.val hsp), ?_, rfl, fun k hk => ?_⟩
  · simp only [State.setPc_pc, hstack, Vector.getElem_set_self]
  · simp only [State.setPc_stack, State.setSp_stack, hstack, Vector.getElem_set_ne _ _ (Nat.ne_of_gt hk)]

/-! ### Frames -/

section
variable {regs : List Reg} {parts : List Part} {stored : List Nat} {s t : State}

/-- A piece that is kept twice is kept. -/
theorem part_same_trans {u : State} {p : Part} (hst : p.Same s t) (htu : p.Same t u) : p.Same s u := by
  cases p <;> exact Eq.trans htu hst

/-- Nothing changes where the state stays. -/
theorem frame_refl (s : State) : Frame [] [] [] s s :=
  frame_setMem s s.mem [] fun _ _ => rfl

/-- A further change of one piece adds that piece to what changes. -/
theorem frame_cons_part (h : Frame regs parts stored s t) {u : State} {p : Part} (hregs : ∀ r, u.reg r = t.reg r)
    (hother : ∀ q, q ≠ p → q.Same t u) (hbytes : ∀ a, u.readByte a = t.readByte a) :
    Frame regs (p :: parts) stored s u := by
  obtain ⟨hr, hp, hb⟩ := h
  refine ⟨fun r hmem => (hregs r).trans (hr r hmem), fun q hmem => ?_, fun a hmem => (hbytes a).trans (hb a hmem)⟩
  rw [List.mem_cons, not_or] at hmem
  exact part_same_trans (hp q hmem.2) (hother q hmem.1)

theorem frame_setPc (h : Frame regs parts stored s t) (w : Word) : Frame regs (.pc :: parts) stored s (t.setPc w) :=
  frame_cons_part h (fun _ => rfl) (fun q hq => by cases q <;> trivial) fun _ => rfl

theorem frame_setSp (h : Frame regs parts stored s t) (n : Fin 17) :
    Frame regs (.sp :: parts) stored s (t.setSp n) :=
  frame_cons_part h (fun _ => rfl) (fun q hq => by cases q <;> trivial) fun _ => rfl

theorem frame_setStack (h : Frame regs parts stored s t) (k : Vector Word 16) :
    Frame regs (.stack :: parts) stored s (t.setStack k) :=
  frame_cons_part h (fun _ => rfl) (fun q hq => by cases q <;> trivial) fun _ => rfl

end

theorem frame_skipIf (s : State) (c : Bool) : Frame [] [.pc] [] s (s.skipIf c) := by
  rw [State.skipIf_eq]
  exact frame_setPc (frame_refl s) _

/-- A fatal error halts and reports. -/
theorem frame_raiseFatal (s : State) (e : Error) : Frame [] [.run, .trace] [] s (s.raiseFatal e) :=
  frame_setMem_raiseFatal s s.mem e [] fun _ _ => rfl

/-- CALL pushes and jumps, or halts. -/
theorem execCall_frame (nnn : Addr12) (s : State) :
    ∃ t, execCall nnn s = .next t ∧ (Frame [] [.pc, .sp, .stack] [] s t ∨ Frame [] [.run, .trace] [] s t) := by
  rcases sp_lt_or_full s with h | h
  · exact ⟨_, execCall_of_lt nnn s _ h rfl, .inl (frame_setPc (frame_setSp (frame_setStack (frame_refl s) _) _) _)⟩
  · exact ⟨_, execCall_full nnn s h, .inr (frame_raiseFatal s _)⟩

/-- RET pops into `pc`, or halts. -/
theorem execRet_frame (s : State) :
    ∃ t, execRet s = .next t ∧ (Frame [] [.pc, .sp] [] s t ∨ Frame [] [.run, .trace] [] s t) := by
  rcases sp_eq_zero_or_succ s with h | ⟨k, hk, h⟩
  · exact ⟨_, execRet_empty s h, .inr (frame_raiseFatal s _)⟩
  · exact ⟨_, execRet_of_pos s k hk h, .inl (frame_setPc (frame_setSp (frame_refl s) _) _)⟩

/-- What is known of one next state of an outcome is known of every one. -/
theorem holds_of_next {P : State → Prop} {r : Result} (h : ∃ t, r = .next t ∧ P t) {u : State} (hu : r = .next u) :
    P u := by
  obtain ⟨t, ht, hP⟩ := h
  exact Host.Outcome.next.inj (ht.symm.trans hu) ▸ hP

/-- Settles O56: each instruction's next state is a jump, a skip, a push or a pop with its jump, or a halt. -/
theorem controlTransferFrame : Obligations.ControlTransferFrame := by
  intro x y nn nnn s t
  refine ⟨?_, holds_of_next (execCall_frame nnn s), holds_of_next (execRet_frame s)⟩
  have hjump {r : Result} {w : Word} (hr : r = .next (s.setPc w)) : r = .next t → Frame [] [.pc] [] s t :=
    holds_of_next ⟨_, hr, frame_setPc (frame_refl s) w⟩
  have hskip {r : Result} {c : Bool} (hr : r = .next (s.skipIf c)) : r = .next t → Frame [] [.pc] [] s t :=
    holds_of_next ⟨_, hr, frame_skipIf s c⟩
  simp only [List.forall_mem_cons]
  exact ⟨hjump (exec_jp nnn s), hjump (exec_jpV0 nnn s), hskip rfl, hskip rfl, hskip rfl, hskip rfl,
    hskip (exec_skp x s), hskip (exec_sknp x s), nofun⟩

end Sys2Proof.Proofs
end

section
/-! Registers and arithmetic (spec/43_alu.md R84 to R97): the results of 6XNN, 7XNN, 8XYn and CXNN as numbers modulo 256, their
flags, and what these instructions and FX07 leave unchanged. -/

open Sys2Proof Sys2Proof.Machine

namespace Sys2Proof.Proofs

/-! ### Byte results as numbers -/

/-- A byte is the one its number gives (R96). -/
theorem byte_eq_ofNat {a : Byte} {n : Nat} (h : a.toNat = n) : a = BitVec.ofNat 8 n := by
  rw [← h, BitVec.ofNat_toNat, BitVec.setWidth_eq]

/-- Byte addition wraps modulo 256 (R96). -/
theorem byte_add_eq (a b : Byte) : a + b = BitVec.ofNat 8 ((a.toNat + b.toNat) % 256) :=
  byte_eq_ofNat (BitVec.toNat_add a b)

/-- Byte subtraction wraps modulo 256 (R96). -/
theorem byte_sub_eq (a b : Byte) : a - b = BitVec.ofNat 8 ((256 + a.toNat - b.toNat) % 256) := by
  refine byte_eq_ofNat ?_
  rw [BitVec.toNat_sub]
  omega

/-- A logical shift right by one halves (R92). -/
theorem byte_shiftRight_one (a : Byte) : a >>> 1 = BitVec.ofNat 8 (a.toNat / 2) :=
  byte_eq_ofNat (by rw [BitVec.toNat_ushiftRight, Nat.shiftRight_one])

/-- A shift left by one doubles modulo 256 (R94). -/
theorem byte_shiftLeft_one (a : Byte) : a <<< 1 = BitVec.ofNat 8 (a.toNat * 2 % 256) :=
  byte_eq_ofNat (by rw [BitVec.toNat_shiftLeft, Nat.shiftLeft_eq, pow_one])

/-! ### Loads and 7XNN -/

/-- Settles O21. -/
theorem loadsAndAddImmediate : Obligations.LoadsAndAddImmediate := by
  intro x y nn nnn s
  refine ⟨rfl, ?_, rfl, ?_⟩
  · rw [← byte_add_eq]
    rfl
  · rw [BitVec.ofNat_toNat]
    rfl

/-! ### Logic -/

/-- The default dialect leaves the flag register alone (decision D12). -/
theorem logicWriteIn_dialect (x : Reg) (b : Byte) (s : State) : logicWriteIn dialect x b s = .next (s.setReg x b) := rfl

/-- Settles O22: all three write their result by `logicWriteIn`. -/
theorem logicResults : Obligations.LogicResults :=
  ⟨fun _ _ _ _ => ⟨rfl, rfl, rfl⟩, fun x _ s =>
    ⟨logicWriteIn_dialect x _ s, logicWriteIn_dialect x _ s, logicWriteIn_dialect x _ s⟩⟩

/-! ### Arithmetic with a flag -/

/-- Settles O23. -/
theorem addWithCarry : Obligations.AddWithCarry := by
  intro x y s
  rw [← byte_add_eq, ← flagByte_decide]
  rfl

/-- Settles O24: the two differ in the order of the operands alone. -/
theorem subtractWithBorrow : Obligations.SubtractWithBorrow := by
  intro x y s
  simp only [← byte_sub_eq, ← flagByte_decide]
  exact ⟨rfl, rfl⟩

/-- 8XY6 with its result and flag as numbers (R92). -/
theorem execIn_shr (d : Dialect) (x y : Reg) (s : State) :
    execIn d (.shr x y) s =
      .next ((s.setReg x (BitVec.ofNat 8 ((shiftOperandIn d.shiftSource x y s).toNat / 2))).setReg flagReg
        (BitVec.ofNat 8 ((shiftOperandIn d.shiftSource x y s).toNat % 2))) := by
  rw [← byte_shiftRight_one, ← flagByte_shiftedOutRight]
  rfl

/-- 8XYE with its result and flag as numbers (R94). -/
theorem execIn_shl (d : Dialect) (x y : Reg) (s : State) :
    execIn d (.shl x y) s =
      .next ((s.setReg x (BitVec.ofNat 8 ((shiftOperandIn d.shiftSource x y s).toNat * 2 % 256))).setReg flagReg
        (BitVec.ofNat 8 ((shiftOperandIn d.shiftSource x y s).toNat / 128))) := by
  rw [← byte_shiftLeft_one, ← flagByte_shiftedOutLeft]
  rfl

/-- Settles O25: the operand is that of the dialect, which by default is `V[X]` (decision D9). -/
theorem shiftsByOne : Obligations.ShiftsByOne :=
  ⟨fun d x y s => ⟨execIn_shr d x y s, execIn_shl d x y s⟩,
    fun x y s => ⟨execIn_shr dialect x y s, execIn_shl dialect x y s⟩⟩

/-! ### The random byte -/

/-- Settles O27: a bit that the mask clears is 0 in `V[X]`. -/
theorem randomByteIsMasked : Obligations.RandomByteIsMasked := by
  intro x nn s
  refine ⟨_, rfl, rfl, fun k hk => ?_⟩
  rw [State.setReg_reg, if_pos rfl, BitVec.getLsbD_and, hk, Bool.and_false]

/-! ### Frames -/

/-- A result and its flag change two registers alone. -/
theorem frame_setRegFlag (s : State) (x : Reg) (b : Byte) (f : Bool) :
    Frame [x, flagReg] [] [] s (s.setRegFlag x b f) := by
  obtain ⟨hregs, hparts, hbytes⟩ := frame_setReg (frame_setReg (frame_refl s) x b) flagReg (flagByte f)
  exact ⟨fun r hr => hregs r (mt (List.Perm.swap x flagReg []).mem_iff.mp hr), hparts, hbytes⟩

theorem frame_setDraws (s : State) (n : Nat) : Frame [] [.draws] [] s (s.setDraws n) :=
  frame_cons_part (frame_refl s) (fun _ => rfl) (fun q hq => by cases q <;> trivial) fun _ => rfl

/-- Settles O55: each next state is a write of the destination, of the destination and the flag, or of the destination after
a draw. -/
theorem registerWritersFrame : Obligations.RegisterWritersFrame := by
  intro x y nn s t
  have hreg {r : Result} {b : Byte} (hr : r = .next (s.setReg x b)) : r = .next t → Frame [x] [] [] s t :=
    holds_of_next ⟨_, hr, frame_setReg (frame_refl s) x b⟩
  have hflag {r : Result} {b : Byte} {f : Bool} (hr : r = .next (s.setRegFlag x b f)) :
      r = .next t → Frame [x, flagReg] [] [] s t :=
    holds_of_next ⟨_, hr, frame_setRegFlag s x b f⟩
  simp only [List.forall_mem_cons]
  exact ⟨⟨hreg rfl, hreg rfl, hreg rfl, hreg rfl, hreg rfl, hreg rfl, hreg rfl, nofun⟩,
    ⟨hflag rfl, hflag rfl, hflag rfl, hflag rfl, hflag rfl, nofun⟩,
    holds_of_next ⟨_, rfl, frame_setReg (frame_setDraws s _) x _⟩⟩

end Sys2Proof.Proofs
end

section
/-! The index register and the memory instructions (spec/44_index_memory.md R98 to R103): the sums of FX1E, the stores that no
reserved address stops, the load of FX65, a store read back by a load, and what these and the timer writers leave unchanged. -/

open Sys2Proof Sys2Proof.Machine

namespace Sys2Proof.Proofs

/-! ### Sums into `I` -/

/-- A 16-bit sum is the one its number gives (R18). -/
theorem word_add_ofNat (w : Word) (n : Nat) : w + BitVec.ofNat 16 n = BitVec.ofNat 16 (w.toNat + n) := by
  rw [BitVec.ofNat_add, BitVec.ofNat_toNat, BitVec.setWidth_eq]

/-- A byte added to a word, modulo 0x10000 (R99). -/
theorem word_add_byte (w : Word) (b : Byte) : w + b.setWidth 16 = BitVec.ofNat 16 ((w.toNat + b.toNat) % 0x10000) := by
  rw [← BitVec.ofNat_toNat, word_add_ofNat]
  exact BitVec.eq_of_toNat_eq (Nat.mod_mod _ _).symm

/-- FX1E in a dialect, with its sum and its flag as numbers (R99). -/
theorem execIn_addIVx (d : Dialect) (x : Reg) (s : State) :
    execIn d (.addIVx x) s =
      .next (if d.addISetsVF then
          (s.setI (BitVec.ofNat 16 ((s.i.toNat + (s.reg x).toNat) % 0x10000))).setReg flagReg
            (if 0x0FFF < s.i.toNat + (s.reg x).toNat then 1 else 0)
        else s.setI (BitVec.ofNat 16 ((s.i.toNat + (s.reg x).toNat) % 0x10000))) := by
  rw [← word_add_byte, ← flagByte_decide]
  rfl

/-- FX29, with the font base and the glyph size as numbers (R100; decisions D5 and D6). -/
theorem exec_ldFVx (x : Reg) (s : State) :
    exec (.ldFVx x) s = .next (s.setI (BitVec.ofNat 16 (5 * ((s.reg x).toNat % 16)))) := by
  rw [← Nat.zero_add (5 * _)]
  rfl

/-- Settles O28: the default dialect sets no flag (decision D10). -/
theorem indexArithmetic : Obligations.IndexArithmetic :=
  ⟨execIn_addIVx, fun x s => ⟨(exec_eq_execIn _ s).trans (execIn_addIVx dialect x s), exec_ldFVx x s⟩⟩

/-! ### Frames -/

section
variable {regs : List Reg} {parts : List Part} {stored : List Nat} {s t : State}

theorem frame_setI (h : Frame regs parts stored s t) (w : Word) : Frame regs (.i :: parts) stored s (t.setI w) :=
  frame_cons_part h (fun _ => rfl) (fun q hq => by cases q <;> trivial) fun _ => rfl

theorem frame_setDt (h : Frame regs parts stored s t) (b : Byte) : Frame regs (.dt :: parts) stored s (t.setDt b) :=
  frame_cons_part h (fun _ => rfl) (fun q hq => by cases q <;> trivial) fun _ => rfl

theorem frame_setSt (h : Frame regs parts stored s t) (b : Byte) : Frame regs (.st :: parts) stored s (t.setSt b) :=
  frame_cons_part h (fun _ => rfl) (fun q hq => by cases q <;> trivial) fun _ => rfl

theorem frame_setRun (h : Frame regs parts stored s t) (r : RunState) :
    Frame regs (.run :: parts) stored s (t.setRun r) :=
  frame_cons_part h (fun _ => rfl) (fun q hq => by cases q <;> trivial) fun _ => rfl

theorem frame_incrementIIn (h : Frame regs parts stored s t) (d : Dialect) (x : Reg) :
    Frame regs (.i :: parts) stored s (t.incrementIIn d x) := by
  rw [State.incrementIIn_eq]
  exact frame_setI h _

end

/-- A load of registers changes those registers alone. -/
theorem frame_loadRegs (a : Word) (rs : List Reg) (s : State) : Frame rs [] [] s (loadRegs a rs s) := by
  refine ⟨loadRegs_reg_of_not_mem a rs s, ?_⟩
  obtain ⟨v, hv⟩ := loadRegs_eq a rs s
  rw [hv]
  exact ⟨fun p _ => by cases p <;> rfl, fun _ _ => rfl⟩

/-- Settles O58: each next state is a write of one piece, and no write of the flag register follows FX1E's sum (decision
D10). -/
theorem specialWritersFrame : Obligations.SpecialWritersFrame := by
  intro x nnn s t
  have hindex {r : Result} {w : Word} (hr : r = .next (s.setI w)) : r = .next t → Frame [] [.i] [] s t :=
    holds_of_next ⟨_, hr, frame_setI (frame_refl s) w⟩
  simp only [List.forall_mem_cons]
  exact ⟨⟨hindex rfl, hindex rfl, hindex rfl, nofun⟩, holds_of_next ⟨_, rfl, frame_setDt (frame_refl s) _⟩,
    holds_of_next ⟨_, rfl, frame_setSt (frame_refl s) _⟩, holds_of_next ⟨_, rfl, frame_setRun (frame_refl s) _⟩⟩

/-! ### Stores that nothing stops -/

/-- The increment of `I`, with its sum as a number (R102, R103). -/
theorem incrementIIn_i (s : State) (d : Dialect) (x : Reg) :
    (s.incrementIIn d x).i = if d.memOpsIncrementI then BitVec.ofNat 16 (s.i.toNat + x.val + 1) else s.i := by
  rw [State.incrementIIn_eq, word_add_ofNat]
  rfl

theorem incrementIIn_readByte (s : State) (d : Dialect) (x : Reg) (a : Word) :
    (s.incrementIIn d x).readByte a = s.readByte a := by
  rw [State.incrementIIn_eq, State.setI_readByte]

/-- A run of stores that the dialect or the addresses keep from stopping changes memory alone, inside its window, and there
every byte but those whose write the dialect drops (R40). -/
theorem storeBytesIn_unstopped (d : Dialect) (bs : List Byte) (hl : bs.length ≤ 4096) (a : Word) (s : State)
    (h : d.reservedWrite ≠ .fault ∨ ∀ k, k < bs.length → 0x200 ≤ (a.toNat + k) % 4096) :
    ∃ m, storeBytesIn d a bs s = .done (s.setMem m) ∧ Frame [] [] (window a bs.length) s (s.setMem m) ∧
      ∀ k (hk : k < bs.length), (s.setMem m).readByte (a + BitVec.ofNat 16 k) =
        if 0x200 ≤ (a.toNat + k) % 4096 ∨ d.reservedWrite = .allow then bs[k]
        else s.readByte (a + BitVec.ofNat 16 k) := by
  have hframe {m : Memory} (hm : storeBytesIn d a bs s = .done (s.setMem m)) :
      Frame [] [] (window a bs.length) s (s.setMem m) := frame_setMem s m _ fun c hc => by
    have hout := storeBytesIn_readByte d bs a s id (fun _ => rfl) c (not_mem_window.mp hc)
    rwa [hm] at hout
  rcases h with hd | hhigh
  · obtain ⟨m, hm⟩ := storeBytesIn_done d hd a bs s
    refine ⟨m, hm, hframe hm, fun k hk => ?_⟩
    have hin := storeBytesIn_readByte_at d hd id (fun _ => rfl) bs hl a s k hk
    rw [hm, effective_add] at hin
    exact hin
  · obtain ⟨m, hm, hin⟩ := storeBytesIn_unreserved d bs hl a s fun k hk => by
      rw [effective_add]
      exact hhigh k hk
    exact ⟨m, hm, hframe hm, fun k hk => by rw [if_pos (.inl (hhigh k hk))]; exact hin k hk⟩

/-- Settles O29: both instructions are such a run of stores, of three digits or of the registers up to `x`. -/
theorem storesPutBytesAtI : Obligations.StoresPutBytesAtI := by
  refine fun d x s => ⟨fun h => ?_, fun h => ?_⟩
  · have hlen := length_decimalDigits (s.reg x)
    obtain ⟨m, hm, hframe, hread⟩ := storeBytesIn_unstopped d (decimalDigits (s.reg x)) (by omega) s.i s (hlen ▸ h)
    refine ⟨s.setMem m, by rw [execIn_ldBVx, hm]; rfl, hframe, fun k hk => ?_⟩
    rw [hread k (hlen ▸ hk), getElem_decimalDigits]
  · have hlen := length_map_regsTo s x
    obtain ⟨m, hm, hframe, hread⟩ := storeBytesIn_unstopped d ((regsTo x).map s.reg) (by omega) s.i s
      (h.imp_right fun hhigh k hk => hhigh ⟨k, by omega⟩ (Nat.le_of_lt_succ (hlen ▸ hk)))
    refine ⟨(s.setMem m).incrementIIn d x, by rw [execIn_ldMemVx, hm]; rfl, frame_incrementIIn (hlen ▸ hframe) d x,
      incrementIIn_i (s.setMem m) d x, fun r hr => ?_⟩
    rw [incrementIIn_readByte, hread r.val (hlen ▸ Nat.lt_succ_of_le hr), getElem_map_regsTo]

/-! ### The load of FX65 -/

/-- FX65 is a load of the registers and the increment of `I` (R103). -/
theorem execIn_ldVxMem (d : Dialect) (x : Reg) (s : State) :
    execIn d (.ldVxMem x) s = .next ((loadRegs s.i (regsTo x) s).incrementIIn d x) := rfl

/-- FX65 in the default dialect is the load alone (decision D11). -/
theorem exec_ldVxMem (x : Reg) (s : State) : exec (.ldVxMem x) s = .next (loadRegs s.i (regsTo x) s) := rfl

theorem loadRegs_i (a : Word) (rs : List Reg) (s : State) : (loadRegs a rs s).i = s.i := by
  obtain ⟨-, hparts, -⟩ := frame_loadRegs a rs s
  exact hparts .i List.not_mem_nil

/-- Register `r` of the range is loaded from the reduced address `r` after `a` (R36, R103). -/
theorem loadRegs_regsTo_reg_of_le {x r : Reg} (hr : r ≤ x) (a : Word) (s : State) :
    (loadRegs a (regsTo x) s).reg r = s.mem.read ((a.toNat + r.val) % 4096) := by
  rw [loadRegs_regsTo_reg, if_pos hr, State.readByte_eq, effective_add]

theorem incrementIIn_reg (s : State) (d : Dialect) (x r : Reg) : (s.incrementIIn d x).reg r = s.reg r := by
  rw [State.incrementIIn_eq, State.setI_reg]

/-- FX65 in the default dialect (R103). -/
theorem execLdVxMem_default (x : Reg) (s : State) :
    ∃ t, exec (.ldVxMem x) s = .next t ∧ Frame (regsTo x) [] [] s t ∧
      ∀ r : Reg, r ≤ x → t.reg r = s.mem.read ((s.i.toNat + r.val) % 4096) :=
  ⟨_, exec_ldVxMem x s, frame_loadRegs s.i _ s, fun _ hr => loadRegs_regsTo_reg_of_le hr s.i s⟩

/-- Settles O32: the increment of `I` comes after the load and touches neither registers nor memory. -/
theorem loadReadsBytesAtI : Obligations.LoadReadsBytesAtI := by
  refine ⟨fun d x s => ⟨_, execIn_ldVxMem d x s, frame_incrementIIn (frame_loadRegs s.i _ s) d x, ?_, fun r hr => ?_⟩,
    execLdVxMem_default⟩
  · rw [incrementIIn_i, loadRegs_i]
  · rw [incrementIIn_reg, loadRegs_regsTo_reg_of_le hr]

/-- Settles O57. -/
theorem memoryInstructionsFrame : Obligations.MemoryInstructionsFrame := by
  intro x s t
  obtain ⟨u, hu, hdigits, -⟩ := execLdBVx_default x s
  obtain ⟨v, hv, hregs, -⟩ := execLdMemVx_default x s
  obtain ⟨w, hw, hload, -⟩ := execLdVxMem_default x s
  exact ⟨holds_of_next ⟨u, hu, hdigits⟩, holds_of_next ⟨v, hv, hregs⟩, holds_of_next ⟨w, hw, hload⟩⟩

/-! ### A store, then a load -/

/-- Settles O33: FX55 leaves `I` alone, so register `r` is loaded from the address that it was stored at. -/
theorem storeThenLoadRestoresRegisters : Obligations.StoreThenLoadRestoresRegisters := by
  intro x s hhigh
  obtain ⟨t, ht, ⟨-, hparts, -⟩, hstored⟩ := execLdMemVx_default x s
  have hi : t.i = s.i := hparts .i List.not_mem_nil
  refine ⟨t, ht, fun v => ?_⟩
  obtain ⟨u, hu, -, hloaded⟩ := execLdVxMem_default x { t with v := v }
  refine ⟨u, hu, fun r hr => ?_⟩
  have hbyte := hstored r hr
  rw [if_pos (hhigh r.val hr), State.readByte_eq, effective_add] at hbyte
  rw [hloaded r hr, ← hbyte, hi]

/-- The digits of a byte make it again. -/
theorem ofNat_digits_toNat (n : Nat) (hn : n < 256) :
    100 * (BitVec.ofNat 8 (n / 100)).toNat + 10 * (BitVec.ofNat 8 (n / 10 % 10)).toNat + (BitVec.ofNat 8 (n % 10)).toNat = n ∧
      (BitVec.ofNat 8 (n / 100)).toNat ≤ 2 ∧ (BitVec.ofNat 8 (n / 10 % 10)).toNat ≤ 9 ∧
      (BitVec.ofNat 8 (n % 10)).toNat ≤ 9 := by
  simp only [BitVec.toNat_ofNat]
  omega

/-- Settles O34: FX33 leaves `I` alone, so register `k` is loaded from the address of the `k`-th digit. -/
theorem decimalDigitsMakeTheValue : Obligations.DecimalDigitsMakeTheValue := by
  intro x s hhigh
  obtain ⟨t, ht, ⟨-, hparts, -⟩, hstored⟩ := execLdBVx_default x s
  have hi : t.i = s.i := hparts .i List.not_mem_nil
  obtain ⟨u, hu, -, hloaded⟩ := execLdVxMem_default 2 t
  have hdigit (r : Reg) (hr : r ≤ 2) :
      u.reg r = BitVec.ofNat 8 ([(s.reg x).toNat / 100, (s.reg x).toNat / 10 % 10, (s.reg x).toNat % 10].getD r.val 0) := by
    have hr3 : r.val < 3 := Nat.lt_succ_of_le hr
    have hbyte := hstored r.val hr3
    rwa [if_pos (hhigh r.val hr3), State.readByte_eq, effective_add, ← hi, ← hloaded r hr] at hbyte
  refine ⟨t, u, ht, hu, ?_⟩
  rw [hdigit 0 (by decide), hdigit 1 (by decide), hdigit 2 (by decide)]
  exact ofNat_digits_toNat (s.reg x).toNat (s.reg x).isLt

end Sys2Proof.Proofs
end

section
/-! Input and timers (spec/45_input_timers.md R104 to R110): the key that a register value names, the key skips, the key wait
and the moves between a register and a timer. -/

open Sys2Proof Sys2Proof.Machine

namespace Sys2Proof.Proofs

/-! ### The named key -/

/-- The key a register value names: its low nibble, or the value itself where the dialect makes one above 15 an error
(R104). -/
theorem keyIndexIn_eq_some_iff (mode : KeyIndexMode) (b : Byte) (k : Key) :
    keyIndexIn mode b = some k ↔
      (mode = .lowNibble ∧ b.toNat % 16 = k.val) ∨ (mode = .fault ∧ b.toNat = k.val) := by
  cases mode with
  | lowNibble => simp [keyIndexIn, Fin.ext_iff]
  | fault =>
    simp only [keyIndexIn, Option.dite_none_right_eq_some, Option.some.injEq, Fin.ext_iff, reduceCtorEq, false_and,
      false_or, true_and]
    exact ⟨fun ⟨_, h⟩ => h, fun h => ⟨h ▸ k.isLt, h⟩⟩

/-! ### The key skips -/

/-- A skip on a pressed key (R105). -/
theorem skipIf_beq_true (s : State) (c : Bool) : s.skipIf (c == true) = if c then s.setPc (s.pc + 2) else s := by
  simp only [State.skipIf, beq_true]

/-- A skip on a key that is not pressed (R106). -/
theorem skipIf_beq_false (s : State) (c : Bool) : s.skipIf (c == false) = if c then s else s.setPc (s.pc + 2) := by
  cases c <;> rfl

/-- EX9E and EXA1 on a register that names a key (R105, R106). -/
theorem execIn_keySkips_of_some (d : Dialect) (x : Reg) (s : State) (k : Key)
    (h : keyIndexIn d.keyIndexMode (s.reg x) = some k) :
    execIn d (.skp x) s = .next (if s.keyAt k then s.setPc (s.pc + 2) else s) ∧
      execIn d (.sknp x) s = .next (if s.keyAt k then s else s.setPc (s.pc + 2)) := by
  rw [← skipIf_beq_true, ← skipIf_beq_false]
  exact ⟨skipOnKeyIn_some d true x s k h, skipOnKeyIn_some d false x s k h⟩

/-- Settles O20: each clause is a key skip on a register that names a key, or, in the last, on one that names none. -/
theorem keySkipsTestTheNamedKey : Obligations.KeySkipsTestTheNamedKey := by
  refine ⟨execIn_keySkips_of_some, fun x s k hk => ?_, fun d x s k hk => ?_, fun d x s hmode hx => ?_⟩
  · have hkey : keyIndexIn dialect.keyIndexMode (s.reg x) = some k :=
      (keyIndexIn_eq_some_iff _ _ k).mpr (.inl ⟨rfl, hk.symm⟩)
    rw [exec_eq_execIn, exec_eq_execIn]
    exact execIn_keySkips_of_some dialect x s k hkey
  · exact execIn_keySkips_of_some d x s k ((keyIndexIn_eq_some_iff _ _ k).mpr hk)
  · have hnone : keyIndexIn d.keyIndexMode (s.reg x) = none := (keyIndexIn_eq_none_iff _ _).mpr ⟨hmode, hx⟩
    exact ⟨skipOnKeyIn_none d true x s hnone, skipOnKeyIn_none d false x s hnone⟩

/-! ### The key wait and the timer moves -/

/-- Settles O36: each of the four is one field write. -/
theorem keyWaitAndTimerMoves : Obligations.KeyWaitAndTimerMoves :=
  fun _ _ => ⟨rfl, rfl, rfl, rfl⟩

end Sys2Proof.Proofs
end

section
/-! Errors of a step (spec/60_exceptions.md R113 to R115): a whole step that overflows or underflows the stack, and which steps
report an invalid word. -/

open Sys2Proof Sys2Proof.Machine

namespace Sys2Proof.Proofs

/-- Once `pc` has advanced past `a`, the fetch address is `a` again (R65). -/
theorem fetchAddress_setPc_add_two (s : State) (a : Word) : (s.setPc (a + 2)).fetchAddress = a :=
  BitVec.add_sub_cancel a 2

/-- Settles O17: the step is CALL at depth 16, or RET at depth 0, on the state with `pc` advanced. -/
theorem stackErrorStep : Obligations.StackErrorStep := by
  refine ⟨fun s nnn hrun hd hsp => ?_, fun s hrun hd hsp => ?_⟩
  · calc step s = execCall nnn (s.setPc (s.pc + 2)) := engineStepIn_instr dialect exec s (.call nnn) hrun hd
      _ = _ := by rw [execCall_full nnn (s.setPc (s.pc + 2)) hsp, fetchAddress_setPc_add_two, State.raiseFatal_eq, Error.kind]
  · calc step s = execRet (s.setPc (s.pc + 2)) := engineStepIn_instr dialect exec s .ret hrun hd
      _ = _ := by rw [execRet_empty (s.setPc (s.pc + 2)) hsp, fetchAddress_setPc_add_two, State.raiseFatal_eq, Error.kind]

/-- The decoder rejects exactly the words that are not well formed (R60). -/
theorem decodeWord_eq_invalid_iff (strict : Bool) (w : Word) :
    (∃ why, decodeWord strict w = .invalid why) ↔ wordWellFormed strict w = false := by
  simp only [decoderRejectsTheInvalidWords strict w, wordWellFormed, Option.isNone_eq_false_iff, Option.isSome_iff_exists]

/-- No instruction raises `InvalidInstruction`. -/
theorem Raises.ne_invalidInstruction {d : Dialect} {s : State} {i : Instr} {e : Error} (h : Raises d s i e) (w a : Word) :
    e ≠ .invalidInstruction w a := by
  cases h <;> exact Error.noConfusion

/-- The execute phase never reports an invalid word. -/
theorem Ending.trace_ne_invalidInstruction {d : Dialect} {i : Instr} {s t : State} (h : Ending d i s t) (w a : Word) :
    t.trace ≠ .raised (.invalidInstruction w a) :: s.trace := by
  cases h with
  | completed htrace hrun hi => exact htrace ▸ (List.cons_ne_self _ _).symm
  | suspended x hi htrace hrun => exact htrace ▸ (List.cons_ne_self _ _).symm
  | stopped e he htrace hrun =>
    intro h
    have hcons := htrace.symm.trans h
    injection hcons with hevent
    exact he.ne_invalidInstruction w a (Event.raised.inj hevent)

/-- Settles O10, by the three things a step can do: only the report of a word that the decoder rejects adds the event. -/
theorem onlyFetchedInvalidWordsAreReported : Obligations.OnlyFetchedInvalidWordsAreReported := by
  intro d s t h
  rw [← decodeWord_eq_invalid_iff]
  rcases engineStepIn_cases d (execIn d) s with ⟨hrun, he⟩ | ⟨-, i, hd, he⟩ | ⟨hrun, why, hd, he⟩
  · obtain rfl : s = t := Host.Outcome.next.inj (he.symm.trans h)
    exact iff_of_false (fun ⟨w, a, htrace⟩ => List.cons_ne_self _ _ htrace.symm) fun ⟨hr, _⟩ => hrun hr
  · have hend : Ending d i (s.setPc (s.pc + 2)) t := holds_of_next (execIn_ending d i _) (he.symm.trans h)
    refine iff_of_false (fun ⟨w, a, htrace⟩ => hend.trace_ne_invalidInstruction w a htrace) fun ⟨_, why, hwhy⟩ => ?_
    exact Decoded.noConfusion (hd.symm.trans hwhy)
  · refine iff_of_true ⟨s.fetch16 s.pc, s.pc, ?_⟩ ⟨hrun, why, hd⟩
    rw [← Host.Outcome.next.inj (he.symm.trans h), State.raiseInvalid_eq]
    rfl

end Sys2Proof.Proofs
end

section
/-! The host's calls (spec/60_exceptions.md R116, R117, R120 to R125): what each of them can make of a state, that all of them
keep the invariant, and what they do to a core that waits for a key. -/

open Sys2Proof Sys2Proof.Machine

namespace Sys2Proof.Proofs

/-! ### The timers -/

theorem frame_trace (s : State) (events : List Event) : Frame [] [.trace] [] s { s with trace := events } :=
  frame_cons_part (frame_refl s) (fun _ => rfl) (fun q hq => by cases q <;> trivial) fun _ => rfl

/-- A tick writes the two timers and the trace, and nothing else (R120, R121). -/
theorem tickTimers_eq (s : State) :
    tickTimers s =
      ({ s with trace := if s.st = 1 then .beep :: s.trace else s.trace }.setSt (countdown s.st)).setDt
        (countdown s.dt) := by
  unfold tickTimers
  split <;> rfl

theorem tickTimers_frame (s : State) : Frame [] [.dt, .st, .trace] [] s (tickTimers s) := by
  rw [tickTimers_eq]
  exact frame_setDt (frame_setSt (frame_trace s _) _) _

theorem tickTimers_run (s : State) : (tickTimers s).run = s.run := by
  rw [tickTimers_eq, State.setDt_run, State.setSt_run]

/-- Settles O40, piece by piece of what a tick writes. -/
theorem tickCountsDownAndBeeps : Obligations.TickCountsDownAndBeeps := fun s =>
  ⟨tickTimers s, rfl, tickTimers_frame s, tickTimers_dt s ▸ countdown_toNat s.dt, tickTimers_st s ▸ countdown_toNat s.st,
    congrArg State.trace (tickTimers_eq s)⟩

/-! ### The keys -/

/-- An index that names no key is reported (R117). -/
theorem setKey_of_out_of_range {index : Int} (h : index < 0 ∨ 15 < index) (pressed : Bool) (s : State) :
    setKey index pressed s = s.raise (.inputIndexOutOfRange index) :=
  dif_neg (by omega)

/-- The index of a key is in the range. -/
theorem setKey_val (k : Key) (pressed : Bool) (s : State) : setKey k.val pressed s = pressKey k pressed s :=
  dif_pos (by omega)

/-- A key-up, a key that is held already, or a core that does not wait: the latch is all that is written (R122, R123). -/
theorem pressKey_of_no_completion {k : Key} {pressed : Bool} {s : State}
    (h : pressed = false ∨ s.keyAt k = true ∨ ∀ x, s.run ≠ .awaitingKey x) :
    pressKey k pressed s = s.setKeyAt k pressed := by
  unfold pressKey
  split
  · next hdown =>
    rw [Bool.and_eq_true, Bool.not_eq_true'] at hdown
    have hrun : ∀ x, s.run ≠ .awaitingKey x := (h.resolve_left (by simp [hdown])).resolve_left (by simp [hdown])
    unfold completeKeyWait
    split
    · next x hx => exact absurd hx (hrun x)
    · rfl
    · rfl
  · rfl

/-- A new key-down while the core waits completes FX0A (R123). -/
theorem pressKey_of_completion {k : Key} {x : Reg} {s : State} (hrun : s.run = .awaitingKey x) (hup : s.keyAt k = false) :
    pressKey k true s = ((s.setKeyAt k true).setReg x (BitVec.ofNat 8 k.val)).setRun .running := by
  simp [pressKey, hup, completeKeyWait, hrun]

/-- Settles O42, by the index and then by what the key-down finds. -/
theorem setKeyWritesTheLatch : Obligations.SetKeyWritesTheLatch :=
  ⟨fun _ p s h => congrArg Host.Outcome.next (setKey_of_out_of_range h p s),
    fun k p s h => congrArg Host.Outcome.next ((setKey_val k p s).trans (pressKey_of_no_completion h)),
    fun k _ s hrun hup => congrArg Host.Outcome.next ((setKey_val k true s).trans (pressKey_of_completion hrun hup))⟩

/-- The three things `setKey` can do. -/
theorem setKey_cases (index : Int) (pressed : Bool) (s : State) :
    setKey index pressed s = s.raise (.inputIndexOutOfRange index) ∨
    (∃ k, setKey index pressed s = s.setKeyAt k pressed) ∨
    ∃ (k : Key) (x : Reg), setKey index pressed s =
      ((s.setKeyAt k pressed).setReg x (BitVec.ofNat 8 k.val)).setRun .running := by
  by_cases hrange : index < 0 ∨ 15 < index
  · exact .inl (setKey_of_out_of_range hrange pressed s)
  · obtain ⟨k, rfl⟩ : ∃ k : Key, index = k.val := ⟨⟨index.toNat, by omega⟩, by simp only; omega⟩
    rw [setKey_val]
    by_cases h : pressed = false ∨ s.keyAt k = true ∨ ∀ x, s.run ≠ .awaitingKey x
    · exact .inr (.inl ⟨k, pressKey_of_no_completion h⟩)
    · push Not at h
      obtain ⟨hdown, hup, x, hrun⟩ := h
      obtain rfl : pressed = true := Bool.eq_true_of_not_eq_false hdown
      exact .inr (.inr ⟨k, x, pressKey_of_completion hrun (Bool.eq_false_of_not_eq_true hup)⟩)

/-! ### The load -/

/-- A program that does not fit is refused (R116). -/
theorem loadProgram_of_too_long {bytes : List Byte} (h : 3584 < bytes.length) (font : Option (List Byte)) (s : State) :
    loadProgram bytes font s = s.raise (.loadError bytes.length) :=
  if_pos h

/-- A font of another length is refused (R116, R132). -/
theorem loadProgram_of_bad_font {bytes font : List Byte} (hbytes : bytes.length ≤ 3584) (hfont : font.length ≠ 80)
    (s : State) : loadProgram bytes (some font) s = s.raise (.loadError font.length) :=
  (if_neg (Nat.not_lt.mpr hbytes)).trans (if_neg hfont)

/-- Memory after a load that both checks pass: the program's copy, then the font's, which is empty where there is no font
(R131, R132). -/
def loadedMem (bytes : List Byte) (font : Option (List Byte)) (m : Memory) : Memory :=
  (m.writeList 0x200 bytes).writeList 0 (font.getD [])

theorem loadProgram_of_fits {bytes : List Byte} {font : Option (List Byte)} (hbytes : bytes.length ≤ 3584)
    (hfont : ∀ f, font = some f → f.length = 80) (s : State) :
    loadProgram bytes font s = s.setMem (loadedMem bytes font s.mem) := by
  refine (if_neg (Nat.not_lt.mpr hbytes)).trans ?_
  cases font with
  | none => rfl
  | some f => exact if_pos (hfont f rfl)

/-- A byte after a load, by the range it lies in. -/
theorem loadedMem_read (bytes : List Byte) (font : Option (List Byte)) (m : Memory) (a : Nat) :
    (loadedMem bytes font m).read a =
      if a < (font.getD []).length then (font.getD []).getD a 0
      else if 0x200 ≤ a ∧ a < 0x200 + bytes.length then bytes.getD (a - 0x200) 0 else m.read a := by
  simp only [loadedMem, Memory.read_writeList, Nat.zero_le, Nat.zero_add, true_and, Nat.sub_zero]

/-- A load inside the two limits keeps memory canonical. -/
theorem loadedMem_wf {bytes : List Byte} {font : Option (List Byte)} {m : Memory} (hbytes : bytes.length ≤ 3584)
    (hfont : (font.getD []).length ≤ 80) (hm : m.wf) : (loadedMem bytes font m).wf := by
  have hprogram : 0x200 + bytes.length ≤ memSize := by unfold memSize; omega
  have hfits : 0 + (font.getD []).length ≤ memSize := by unfold memSize; omega
  exact Memory.wf_writeList _ _ _ (Memory.wf_writeList _ _ _ hm hprogram) hfits

/-- The copy of a font is of 80 bytes, or of none where there is no font. -/
theorem length_getD_font_le {font : Option (List Byte)} (hfont : ∀ f, font = some f → f.length = 80) :
    (font.getD []).length ≤ 80 := by
  cases font with
  | none => exact Nat.zero_le _
  | some f => exact (hfont f rfl).le

/-- Settles O45: the two refusals, and the bytes of a load by the range they lie in. -/
theorem loadPlacesTheProgram : Obligations.LoadPlacesTheProgram := by
  refine ⟨fun bytes font s h => congrArg Host.Outcome.next (loadProgram_of_too_long h font s),
    fun bytes font s hb hf => congrArg Host.Outcome.next (loadProgram_of_bad_font hb hf s), fun bytes font s hb hf => ?_⟩
  have hlen := length_getD_font_le hf
  refine ⟨_, congrArg Host.Outcome.next (loadProgram_of_fits hb hf s), rfl, fun j hj => ?_, fun f hfont j hj => ?_,
    fun a hout hnofont => ?_⟩ <;> rw [State.setMem_mem, loadedMem_read]
  · rw [if_neg (by omega), if_pos (by omega), Nat.add_sub_cancel_left, List.getD_eq_getElem _ _ hj]
  · obtain rfl := hfont
    exact if_pos (hf f rfl ▸ hj)
  · have hfontless : ¬ a < (font.getD []).length := by
      rcases hnofont with rfl | ha
      · exact Nat.not_lt_zero a
      · omega
    rw [if_neg hfontless, if_neg (by omega)]

/-- The two things a load can do: change memory, which stays canonical, or report an error. -/
theorem loadProgram_cases (bytes : List Byte) (font : Option (List Byte)) (s : State) :
    (∃ m, (s.mem.wf → m.wf) ∧ loadProgram bytes font s = s.setMem m) ∨
    ∃ n, loadProgram bytes font s = s.raise (.loadError n) := by
  rcases Nat.lt_or_ge 3584 bytes.length with hlong | hb
  · exact .inr ⟨_, loadProgram_of_too_long hlong font s⟩
  by_cases hf : ∀ f, font = some f → f.length = 80
  · exact .inl ⟨_, loadedMem_wf hb (length_getD_font_le hf), loadProgram_of_fits hb hf s⟩
  · push Not at hf
    obtain ⟨f, rfl, hbad⟩ := hf
    exact .inr ⟨_, loadProgram_of_bad_font hb hbad s⟩

/-! ### The invariant -/

/-- A report that halts nothing keeps the invariant. -/
theorem inv_raise {s : State} (hs : Inv s) (e : Error) : Inv (s.raise e) :=
  inv_of_same_run hs hs.1 rfl (List.subset_cons_self _ _)

theorem tickTimers_inv {s : State} (hs : Inv s) : Inv (tickTimers s) := by
  refine inv_of_same_run hs (tickTimers_mem s ▸ hs.1) (tickTimers_run s) ?_
  rw [tickTimers_trace]
  split
  · exact List.subset_cons_self _ _
  · exact List.Subset.refl _

/-- `setKey` reports, writes the latch, or makes the core run. -/
theorem setKey_inv {s : State} (hs : Inv s) (index : Int) (pressed : Bool) : Inv (setKey index pressed s) := by
  rcases setKey_cases index pressed s with h | ⟨k, h⟩ | ⟨k, x, h⟩ <;> rw [h]
  · exact inv_raise hs _
  · exact inv_of_same_run hs hs.1 rfl (List.Subset.refl _)
  · exact inv_of_not_halted hs.1 fun _ he => RunState.noConfusion he

theorem loadProgram_inv {s : State} (hs : Inv s) (bytes : List Byte) (font : Option (List Byte)) :
    Inv (loadProgram bytes font s) := by
  rcases loadProgram_cases bytes font s with ⟨m, hwf, h⟩ | ⟨n, h⟩ <;> rw [h]
  · exact inv_of_same_run hs (hwf hs.1) rfl (List.Subset.refl _)
  · exact inv_raise hs _

/-- `reset()` establishes the invariant, from any state (R129). -/
theorem resetCore_inv (s : State) : Inv s.resetCore :=
  inv_of_not_halted State.reset_mem_wf fun _ he => RunState.noConfusion he

/-- Every call of the host keeps the invariant, in any dialect. -/
theorem performIn_inv (d : Dialect) (c : HostCall) (s t : State) (hs : Inv s) (h : performIn d c s = .next t) : Inv t := by
  cases c with
  | step => exact stepIn_inv d s t hs h
  | tickTimers => exact Host.Outcome.next.inj h ▸ tickTimers_inv hs
  | setKey index pressed => exact Host.Outcome.next.inj h ▸ setKey_inv hs index pressed
  | getFramebuffer => exact Host.Outcome.next.inj h ▸ hs
  | loadProgram bytes font => exact Host.Outcome.next.inj h ▸ loadProgram_inv hs bytes font
  | reset => exact Host.Outcome.next.inj h ▸ resetCore_inv s

/-- Every state that the core can reach has the invariant, by induction on the calls. -/
theorem reachableIn_inv {d : Dialect} {s : State} (h : ReachableIn d s) : Inv s := by
  induction h with
  | reset => exact resetCore_inv State.reset
  | call c s t _ ht ih => exact performIn_inv d c s t ih ht

/-- Settles O49: every call keeps the invariant, and reset establishes it. -/
theorem everyCallKeepsTheInvariant : Obligations.EveryCallKeepsTheInvariant :=
  ⟨performIn_inv, fun _ _ => reachableIn_inv⟩

/-! ### A core that waits for a key -/

/-- `step()` of a core that waits does nothing (R63). -/
theorem step_of_waiting {s : State} (hw : WaitingForKey s) : step s = .next s := by
  obtain ⟨x, hrun⟩ := hw
  exact engineStepIn_of_not_running dialect exec s (hrun ▸ RunState.noConfusion)

/-- Of the calls that are no reset and no key, a tick alone lowers the timers of a core that waits, and none ends the wait
(R128, R141). -/
theorem run_timers_of_waiting {c : HostCall} {s t : State} (hw : WaitingForKey s)
    (hquiet : c ≠ .reset ∧ ∀ k p, c ≠ .setKey k p) (h : perform c s = .next t) :
    t.run = s.run ∧ t.dt.toNat = s.dt.toNat - (if c = .tickTimers then 1 else 0) ∧
      t.st.toNat = s.st.toNat - (if c = .tickTimers then 1 else 0) := by
  cases c with
  | step =>
    obtain rfl : s = t := Host.Outcome.next.inj ((step_of_waiting hw).symm.trans h)
    exact ⟨rfl, rfl, rfl⟩
  | tickTimers =>
    obtain rfl : tickTimers s = t := Host.Outcome.next.inj h
    refine ⟨tickTimers_run s, ?_, ?_⟩
    · exact tickTimers_dt s ▸ countdown_toNat s.dt
    · exact tickTimers_st s ▸ countdown_toNat s.st
  | setKey k p => exact absurd rfl (hquiet.2 k p)
  | getFramebuffer =>
    obtain rfl : s = t := Host.Outcome.next.inj h
    exact ⟨rfl, rfl, rfl⟩
  | loadProgram bytes font =>
    obtain rfl : loadProgram bytes font s = t := Host.Outcome.next.inj h
    rcases loadProgram_cases bytes font s with ⟨m, -, hload⟩ | ⟨n, hload⟩ <;> rw [hload]
    · exact ⟨rfl, rfl, rfl⟩
    · exact ⟨rfl, rfl, rfl⟩
  | reset => exact absurd rfl hquiet.1

/-- Two changes within the same bounds are one. -/
theorem frame_trans {regs : List Reg} {parts : List Part} {stored : List Nat} {s t u : State}
    (hst : Frame regs parts stored s t) (htu : Frame regs parts stored t u) : Frame regs parts stored s u := by
  obtain ⟨hr, hp, hb⟩ := hst
  obtain ⟨hr', hp', hb'⟩ := htu
  exact ⟨fun r h => (hr' r h).trans (hr r h), fun p h => part_same_trans (hp p h) (hp' p h),
    fun a h => (hb' a h).trans (hb a h)⟩

theorem frame_timers_refl (s : State) : Frame [] [.dt, .st, .trace] [] s s :=
  frame_setDt (frame_setSt (frame_trace s s.trace) s.st) s.dt

/-- A step, a tick or a read of the framebuffer changes no more than the timers and the trace of a core that waits. -/
theorem exists_perform_of_waiting {c : HostCall} {s : State} (hw : WaitingForKey s)
    (hc : c = .step ∨ c = .tickTimers ∨ c = .getFramebuffer) :
    ∃ t, perform c s = .next t ∧ Frame [] [.dt, .st, .trace] [] s t := by
  rcases hc with rfl | rfl | rfl
  · exact ⟨s, step_of_waiting hw, frame_timers_refl s⟩
  · exact ⟨_, rfl, tickTimers_frame s⟩
  · exact ⟨s, rfl, frame_timers_refl s⟩

/-- Settles O43, by induction on the calls. -/
theorem keyWaitDoesNotStallTimers : Obligations.KeyWaitDoesNotStallTimers := by
  intro cs x s hrun hcs
  induction cs generalizing s with
  | nil => exact ⟨s, rfl, frame_timers_refl s, rfl, rfl⟩
  | cons c cs ih =>
    rw [List.forall_mem_cons] at hcs
    obtain ⟨hc, hcs⟩ := hcs
    have hquiet : c ≠ .reset ∧ ∀ k p, c ≠ .setKey k p := by
      rcases hc with rfl | rfl | rfl <;> exact ⟨nofun, nofun⟩
    obtain ⟨t, ht, hframe⟩ := exists_perform_of_waiting ⟨x, hrun⟩ hc
    obtain ⟨hsame, hdt, hst⟩ := run_timers_of_waiting ⟨x, hrun⟩ hquiet ht
    obtain ⟨u, hu, hframe', hdt', hst'⟩ := ih t (hsame.trans hrun) hcs
    simp only [List.count_cons, beq_iff_eq]
    refine ⟨u, ?_, frame_trans hframe hframe', ?_, ?_⟩
    · simp only [runCalls, ht, hu]
    · rw [hdt', hdt, Nat.sub_sub, Nat.add_comm]
    · rw [hst', hst, Nat.sub_sub, Nat.add_comm]

/-- A schedule that ticks again and again has a beginning with any number of ticks. -/
theorem exists_count_ticks {schedule : Nat → HostCall} (h : TicksForever schedule) (k : Nat) :
    ∃ n, Nat.count (fun m => schedule m = .tickTimers) n = k := by
  refine Nat.surjective_count_of_infinite_setOfPred (Set.infinite_of_forall_exists_gt fun n => ?_) k
  obtain ⟨m, hm, htick⟩ := h (n + 1)
  exact ⟨m, htick, hm⟩

/-- A core that waits, called with no key and no reset, waits on, and each timer has lost the number of ticks. -/
theorem run_timers_of_waiting_schedule {schedule : Nat → HostCall} {σ : Nat → State}
    (hσ : ∀ n, perform (schedule n) (σ n) = .next (σ (n + 1)))
    (hquiet : ∀ n, schedule n ≠ .reset ∧ ∀ k p, schedule n ≠ .setKey k p) (hw : WaitingForKey (σ 0)) (n : Nat) :
    (σ n).run = (σ 0).run ∧
      (σ n).dt.toNat = (σ 0).dt.toNat - Nat.count (fun m => schedule m = .tickTimers) n ∧
      (σ n).st.toNat = (σ 0).st.toNat - Nat.count (fun m => schedule m = .tickTimers) n := by
  induction n with
  | zero => exact ⟨rfl, rfl, rfl⟩
  | succ n ih =>
    obtain ⟨hrun, hdt, hst⟩ := ih
    have hwn : WaitingForKey (σ n) := hw.imp fun x hx => hrun.trans hx
    obtain ⟨hrun', hdt', hst'⟩ := run_timers_of_waiting hwn (hquiet n) (hσ n)
    rw [Nat.count_succ, ← Nat.sub_sub, ← Nat.sub_sub, ← hdt, ← hst]
    exact ⟨hrun'.trans hrun, hdt', hst'⟩

/-- A timer that has lost 255 is 0. -/
theorem eq_zero_of_toNat_eq_sub {a b : Byte} (h : a.toNat = b.toNat - 255) : a = 0 := by
  bv_omega

/-- Settles O44: after 255 ticks both timers are 0, whatever they held. -/
theorem fairTicksRunTheTimersOut : Obligations.FairTicksRunTheTimersOut := by
  intro schedule σ hfair hσ hquiet hw
  obtain ⟨n, hn⟩ := exists_count_ticks hfair 255
  obtain ⟨hrun, hdt, hst⟩ := run_timers_of_waiting_schedule hσ hquiet hw n
  rw [hn] at hdt hst
  exact ⟨n, eq_zero_of_toNat_eq_sub hdt, eq_zero_of_toNat_eq_sub hst, hrun⟩

end Sys2Proof.Proofs
end

section

/-! ## The reset state has the invariant (70_reset_and_hazards.md, R129) -/

open Sys2Proof Sys2Proof.Machine

namespace Sys2Proof.Proofs

/-- Settles O48: the reset memory is canonical, and the reset core runs, so it has no halt to account for. -/
theorem resetHasTheInvariant : Obligations.ResetHasTheInvariant :=
  inv_of_not_halted State.reset_mem_wf fun _ hhalt => RunState.noConfusion hhalt

end Sys2Proof.Proofs
end
